-- ==== Sys2Proof/Word.lean ====
section
/-! DEFINITION. The word types of the LSBCF block (spec/00_scope.md R7, R8, R12, R14). -/

namespace Sys2Proof

/-- A 32-bit number: a register, a host data word or a command word (R8 `REG_W`, R59, R75). -/
abbrev Word := BitVec 32

/-- A 16-bit number: the register `INT` and the length header (R7 `HDR_W`, R28). -/
abbrev Half := BitVec 16

/-- A byte, 0 to 255: one cell of `PAY`, `CAR` or `OUT` (R7 `BYTE_W`). -/
abbrev Byte := BitVec 8

/-- A Bit, "a boolean", 1 for true and 0 for false: one cell of `BIT` (R14, R18). -/
abbrev Bit := Bool

end Sys2Proof
end

