-- ==== Sys2Proof/Config.lean ====
section
/-! DEFINITION. What an implementation of the block fixes (spec/00_scope.md R7 to R9) and the free
values of the cells nothing has written (spec/10_state.md R44). -/

namespace Sys2Proof.Config

/-- Bits in the length header (R7). -/
abbrev hdrW : Nat := 16

/-- The largest payload bit length a header can state (R7). -/
abbrev hdrMax : Nat := 65535

/-- The number of registers (R8). -/
abbrev nReg : Nat := 10

/-- The two sizes the spec leaves open and has the model take as an argument (R9, D5): every state
carries them, no step changes them, and a claim about every state is a claim about every size. -/
structure Sizes where
  /-- `CAR_MAX`: number of cells of the carrier space. -/
  carMax : Nat
  /-- `PAY_MAX`: number of cells of the payload space. -/
  payMax : Nat
  deriving DecidableEq, Repr

/-- The constraints R9 puts on the two sizes. -/
abbrev Sizes.Legal (z : Sizes) : Prop :=
  1 ≤ z.carMax ∧ z.carMax ≤ 4294967295 ∧ 1 ≤ z.payMax ∧ 8 * z.payMax + 16 ≤ 4294967295

/-- Unconstrained: picks `carMax` (log 1). -/
opaque carMaxChoice : Nat

/-- Unconstrained: picks `payMax` (log 1). -/
opaque payMaxChoice : Nat

/-- Some legal `CAR_MAX`: every value R9 allows is the value for some `carMaxChoice` (log 1). -/
def carMax : Nat := carMaxChoice % 4294967295 + 1

/-- Some legal `PAY_MAX`: every value R9 allows is the value for some `payMaxChoice` (log 1). -/
def payMax : Nat := payMaxChoice % 536870909 + 1

/-- The byte a never-written cell of `PAY` holds after the given number of resets (R44, log 2). -/
opaque freePay (resets index : Nat) : Byte

/-- The byte a never-written cell of `CAR` holds after the given number of resets (R44, log 2). -/
opaque freeCar (resets index : Nat) : Byte

/-- The Bit a never-written cell of `BIT` holds after the given number of resets (R44, log 2). -/
opaque freeBit (resets index : Nat) : Bit

/-- The byte a never-written cell of `OUT` holds after the given number of resets (R44, log 2). -/
opaque freeOut (resets index : Nat) : Byte

end Sys2Proof.Config
end

