-- ==== Sys2Proof/Syntax.lean ====
section
/-! DEFINITION. The nine commands (spec/30_encoding.md R80), the fields of a command word (R77), the
five spaces (spec/20_memory.md R50), the ten registers (spec/10_state.md R20) and what the host can
do to the block (spec/70_reset_and_hazards.md R179, spec/30_encoding.md R85). -/

namespace Sys2Proof

/-- The nine commands, one constructor per row of spec/opcode_table.json. No command has an operand in
its word: the operands are in registers and buffers (R75, R81). -/
inductive Instr where
  /-- `EMBED.RAW`, the document's `WriteRaw` (R129). -/
  | embedRaw
  /-- `EMBED.HDR`, the document's `WriteWithHeader` (R130). -/
  | embedHdr
  /-- `EXTRACT.RAW`, the document's `ReadRaw` (R131). -/
  | extractRaw
  /-- `EXTRACT.HDR`, the document's `ReadWithHeader` (R134). -/
  | extractHdr
  /-- `B2BITS`, `bytesToBits` (R103). -/
  | b2bits
  /-- `BITS2B`, `bitsToBytes` (R105). -/
  | bits2b
  /-- `I2BITS`, `intToBits` (R107). -/
  | i2bits
  /-- `BITS2I`, `bitsToInt` (R109). -/
  | bits2i
  /-- `LSBOF`, `lsbOf` (R111). -/
  | lsbof
  deriving DecidableEq, Repr

/-- The fields of a command word (R77). Format F reads `sel` as `Z`, `DIR`, `HDR` (R78), format C as
`FN` (R79). -/
structure Fields where
  /-- `RSV`, bits 31:4. -/
  rsv : BitVec 28
  /-- `CLS`, bit 3: 0 = framer command, 1 = codec command. -/
  cls : Bool
  /-- `SEL`, bits 2:0. -/
  sel : BitVec 3
  deriving DecidableEq, Repr

/-- Why a command word is illegal (R83). -/
inductive IllegalWord where
  /-- One of bits 31:4 is set (R77). -/
  | reservedBits
  /-- Format F with `Z` = 1: words 4 to 7 (R78). -/
  | formatFZ
  /-- Format C with `FN` = 5, 6 or 7: words 13 to 15 (R79). -/
  | reservedFn
  deriving DecidableEq, Repr

/-- The five address spaces (R50). -/
inductive Space where
  | reg | pay | car | bit | out
  deriving DecidableEq, Repr

/-- The ten registers (R20). -/
inductive Reg where
  | cmd | status | payLen | carLen | bitLen | outLen | knownLen | int | errReq | errAvail
  deriving DecidableEq, Repr

/-- One thing the host does to the block (R179). An access is the triple (space, index or register
number, data word) of R85; a command is a write of its word to register 0 of `reg`. -/
inductive HostAction where
  /-- `wr REG, v`, `wrc SPACE[i], v`, `cmd MNEMONIC`. -/
  | write (space : Space) (index : Nat) (data : Word)
  /-- `rd REG`, `rdc SPACE[i]`. -/
  | read (space : Space) (index : Nat)
  /-- The reset event (R175). -/
  | reset
  deriving DecidableEq, Repr

end Sys2Proof
end

