-- ==== Sys2Proof/Machine/State.lean ====
section
/-! DEFINITION. The state of the block (spec/10_state.md), as plain data, its value after reset (R43)
and the reasons a step could stop. -/

namespace Sys2Proof.Machine

/-- One buffer space: the cells that have been written since reset, as (index, value) pairs in rising
index order. An index that is not listed holds an unspecified value (R44), supplied by the reading
operation as a free value, so no listed value is one an unlisted index is known to read as (log 2).
`Memory Byte` is a list of `Host.Cell`. -/
abbrev Memory (α : Type) := List (Nat × α)

/-- The indices rise strictly and all lie above the bound. -/
def Memory.risesFrom {α : Type} : Nat → Memory α → Bool
  | _, [] => true
  | lo, (i, _) :: rest => decide (lo ≤ i) && Memory.risesFrom (i + 1) rest

/-- The canonical form: strictly rising indices. -/
def Memory.wf {α : Type} (m : Memory α) : Bool := Memory.risesFrom 0 m

/-- The five result codes `STATUS.CODE` can hold (R22, R151); 5 to 7 never appear. -/
inductive ResultCode where
  /-- 0 `OK`: the command did all its writes. -/
  | ok
  /-- 1 `CapacityError` (R152). -/
  | capacityError
  /-- 2 `HeaderOverflow` (R153). -/
  | headerOverflow
  /-- 3 `TruncatedCarrier` (R154). -/
  | truncatedCarrier
  /-- 4 `IllegalOperation` (R155). -/
  | illegalOperation
  deriving DecidableEq, Repr

/-- The machine: the block's registers and buffer spaces, which are all its architectural state (R39,
R41), the sizes it was built with (R9), and the model's own fields for the host's side. -/
structure State where
  /-- `STATUS.CODE`, the result code of the most recent command (R22). -/
  code : ResultCode
  /-- `STATUS.KLV`: the host has written `KNOWN_LEN` since reset (R22, R27). -/
  klv : Bool
  /-- `PAY_LEN`, register 2 (R23). -/
  payLen : Word
  /-- `CAR_LEN`, register 3 (R24). -/
  carLen : Word
  /-- `BIT_LEN`, register 4 (R25). -/
  bitLen : Word
  /-- `OUT_LEN`, register 5 (R26). -/
  outLen : Word
  /-- `KNOWN_LEN`, register 6 (R27). -/
  knownLen : Word
  /-- `INT`, register 7: its bits 15:0; bits 31:16 always read 0 (R28). -/
  int : Half
  /-- `ERR_REQ`, register 8 (R29). -/
  errReq : Word
  /-- `ERR_AVAIL`, register 9 (R29). -/
  errAvail : Word
  /-- `PAY`, the payload space (R31). -/
  pay : Memory Byte
  /-- `CAR`, the carrier space (R30). -/
  car : Memory Byte
  /-- `BIT`, the bit space (R32). -/
  bit : Memory Bit
  /-- `OUT`, the output space (R33). -/
  out : Memory Byte
  /-- `CAR_MAX` and `PAY_MAX` (R9): the argument of the model; no step changes it (log 1). -/
  sizes : Config.Sizes
  /-- The model's own: how many reset events there have been; it picks the free values (log 3). -/
  resets : Nat
  /-- The model's own: the host's accesses still to come, in the host's order (R66, R85; log 4). -/
  script : List HostAction
  /-- The model's own: what the host's reads returned, oldest first (R85, R179; log 5). -/
  replies : List Word
  deriving DecidableEq, Repr

/-- What could stop the machine with a fault. There is nothing: no action of the block faults, hangs or
gets stuck; every command on every state ends with one of the five codes (R160, R189). -/
inductive Fault where
  deriving DecidableEq, Repr

/-- What the machine could refuse to give a meaning. The block's own refusals are result code 4, an
effect the spec gives (R155, R157), so they are next states and not among these. -/
inductive Refusal where
  /-- Raised only by an arm of `exec` whose command has no meaning yet; no arm does. Safe: the machine
  stops where the hardware goes on. -/
  | notModelled (mnemonic : String)
  deriving DecidableEq, Repr

/-- The machine right after reset (R43, R175): every register 0, the known length absent, no cell
specified (R44), sizes unconstrained within R9, and nothing yet done by the host. -/
def State.reset : State :=
  { code := .ok, klv := false, payLen := 0, carLen := 0, bitLen := 0, outLen := 0, knownLen := 0,
    int := 0, errReq := 0, errAvail := 0, pay := [], car := [], bit := [], out := [],
    sizes := { carMax := Config.carMax, payMax := Config.payMax }, resets := 0, script := [],
    replies := [] }

end Sys2Proof.Machine
end

