-- ==== Sys2Proof/Machine/Flags.lean ====
section
/-! DEFINITION. The result report: `STATUS`, `ERR_REQ` and `ERR_AVAIL`, the only flag-like state, which
every command writes at its end (spec/10_state.md R22, R29, R38; spec/60_exceptions.md R151). -/

namespace Sys2Proof.Machine

/-- The number of a result code (R151). -/
def codeNumber : ResultCode → BitVec 3
  | .ok => 0
  | .capacityError => 1
  | .headerOverflow => 2
  | .truncatedCarrier => 3
  | .illegalOperation => 4

/-- `STATUS` as a word: `CODE` in bits 2:0, `KLV` in bit 8, the rest reserved and 0 (R22). -/
def statusWord (code : ResultCode) (klv : Bool) : Word :=
  0#23 ++ (BitVec.ofBool klv ++ (0#5 ++ codeNumber code))

/-- The writes every command makes at its end: `STATUS.CODE`, `ERR_REQ`, `ERR_AVAIL` (R37). -/
def report (code : ResultCode) (required available : Word) (s : State) : State :=
  { s with code := code, errReq := required, errAvail := available }

/-- The end of a command that did all its writes: `CODE` <- 0, `ERR_REQ` <- 0, `ERR_AVAIL` <- 0 (R150). -/
def complete (s : State) : State := report .ok 0 0 s

end Sys2Proof.Machine
end

