-- ==== Sys2Proof/Machine/Ops.lean ====
section
/-! DEFINITION. The named operations over the buffer spaces (spec/00_scope.md R16, spec/10_state.md R36),
the sizes of the spaces (R9) and the error entry `raise` (spec/60_exceptions.md R157). -/

namespace Sys2Proof.Machine

/-- `BIT_MAX` = max(8 × `PAY_MAX`, `CAR_MAX`, 16) (R9). -/
def bitMax (z : Config.Sizes) : Nat := max (max (8 * z.payMax) z.carMax) 16

/-- `OUT_MAX` = floor(`BIT_MAX` / 8) (R9). -/
def outMax (z : Config.Sizes) : Nat := bitMax z / 8

/-- The value listed for an index, if there is one. -/
def Memory.lookup {α : Type} (i : Nat) : Memory α → Option α
  | [] => none
  | (j, v) :: rest => if i = j then some v else Memory.lookup i rest

/-- Write one cell, keeping the indices in rising order. -/
def Memory.write {α : Type} (i : Nat) (v : α) : Memory α → Memory α
  | [] => [(i, v)]
  | (j, w) :: rest =>
    if i < j then (i, v) :: (j, w) :: rest
    else if i = j then (i, v) :: rest
    else (j, w) :: Memory.write i v rest

/-- Write the entries of a sequence to consecutive cells, from the given index upward. -/
def Memory.writeSeq {α : Type} : Nat → List α → Memory α → Memory α
  | _, [], m => m
  | i, v :: vs, m => Memory.writeSeq (i + 1) vs (Memory.write i v m)

/-- `MemRead(PAY, i, 1)` (R16); a never-written cell gives its free value (R44). -/
def readPay (i : Nat) (s : State) : Byte := (Memory.lookup i s.pay).getD (Config.freePay s.resets i)

/-- `MemRead(CAR, i, 1)` (R16); a never-written cell gives its free value (R44). -/
def readCar (i : Nat) (s : State) : Byte := (Memory.lookup i s.car).getD (Config.freeCar s.resets i)

/-- `MemRead(BIT, i, 1)` (R16); a never-written cell gives its free value (R44). -/
def readBit (i : Nat) (s : State) : Bit := (Memory.lookup i s.bit).getD (Config.freeBit s.resets i)

/-- `MemRead(OUT, i, 1)` (R16); a never-written cell gives its free value (R44). -/
def readOut (i : Nat) (s : State) : Byte := (Memory.lookup i s.out).getD (Config.freeOut s.resets i)

/-- `MemWrite(PAY, i, 1, v)` (R16); only the host does this (R31). -/
def writePay (i : Nat) (v : Byte) (s : State) : State := { s with pay := Memory.write i v s.pay }

/-- `MemWrite(CAR, i, 1, v)` (R16). -/
def writeCar (i : Nat) (v : Byte) (s : State) : State := { s with car := Memory.write i v s.car }

/-- `MemWrite(BIT, i, 1, v)` (R16). -/
def writeBit (i : Nat) (v : Bit) (s : State) : State := { s with bit := Memory.write i v s.bit }

/-- `store(BIT, bits)`: the cells, then `BIT_LEN`; cells beyond keep their value (R36). -/
def storeBit (bits : List Bit) (s : State) : State :=
  { s with bit := Memory.writeSeq 0 bits s.bit, bitLen := BitVec.ofNat 32 bits.length }

/-- `store(OUT, bytes)`: the cells, then `OUT_LEN`; cells beyond keep their value (R36). -/
def storeOut (bytes : List Byte) (s : State) : State :=
  { s with out := Memory.writeSeq 0 bytes s.out, outLen := BitVec.ofNat 32 bytes.length }

/-- The errors a command can raise, with what `CapacityError` records (R151, R158). -/
inductive CommandError where
  | capacityError (required available : Nat)
  | headerOverflow
  | truncatedCarrier
  | illegalOperation
  deriving DecidableEq, Repr

/-- The error entry, this block's whole exception mechanism: it writes the code, `ERR_REQ` and
`ERR_AVAIL` and nothing else; there is no control transfer, no mode change, no saved state and
nothing to return to (R157, R158, R161). -/
def raise (e : CommandError) (s : State) : State :=
  match e with
  | .capacityError required available =>
    report .capacityError (BitVec.ofNat 32 required) (BitVec.ofNat 32 available) s
  | .headerOverflow => report .headerOverflow 0 0 s
  | .truncatedCarrier => report .truncatedCarrier 0 0 s
  | .illegalOperation => report .illegalOperation 0 0 s

end Sys2Proof.Machine
end

