-- ==== Sys2Proof/Machine/Operands.lean ====
section
/-! DEFINITION. The operands of the commands, all of them in registers and buffers (spec/30_encoding.md
R81, spec/00_scope.md R16, spec/10_state.md R35, R37). -/

namespace Sys2Proof.Machine

/-- The cells start, start + 1, ... of a space, `count` of them. -/
def cells {α : Type} (read : Nat → α) (start count : Nat) : List α :=
  (List.range count).map fun i => read (start + i)

/-- `seq(PAY)`, the byte-sequence operand (R16, R31). -/
def seqPay (s : State) : List Byte := cells (readPay · s) 0 s.payLen.toNat

/-- `seq(CAR)`, the carrier buffer (R16, R30). -/
def seqCar (s : State) : List Byte := cells (readCar · s) 0 s.carLen.toNat

/-- `seq(BIT)`, the BitSequence operand or result (R16, R32). -/
def seqBit (s : State) : List Bit := cells (readBit · s) 0 s.bitLen.toNat

/-- `seq(OUT)`, the byte-sequence result (R16, R33). -/
def seqOut (s : State) : List Byte := cells (readOut · s) 0 s.outLen.toNat

/-- `seq(CAR)[start ..< start + count]`: only these carrier cells are read (R14, R37). -/
def carSlice (start count : Nat) (s : State) : List Byte := cells (readCar · s) start count

/-- The document's `knownLength: optional u32`: absent until the host has written `KNOWN_LEN` (R27). -/
def knownLength (s : State) : Option Nat := if s.klv then some s.knownLen.toNat else none

end Sys2Proof.Machine
end

