-- ==== Sys2Proof/Machine/BitCodec.lean ====
section
/-! DEFINITION. The BitCodec: its five pure functions (spec/41_bitcodec.md R96 to R100) and its five
commands (R103 to R111). -/

namespace Sys2Proof.Machine

/-- The 8 bits of a byte, most significant first (R52). -/
def byteBits (b : Byte) : List Bit := (List.range 8).map fun j => b.getLsbD (7 - j)

/-- `bytesToBits`: 8 bits per byte, most significant first, in input order (R96). -/
def bytesToBits (bytes : List Byte) : List Bit := bytes.flatMap byteBits

/-- The byte of eight bits, most significant first: the weighted sum of R97. -/
def byteOfBits (b7 b6 b5 b4 b3 b2 b1 b0 : Bit) : Byte :=
  BitVec.ofNat 8 (b7.toNat * 128 + b6.toNat * 64 + b5.toNat * 32 + b4.toNat * 16
    + b3.toNat * 8 + b2.toNat * 4 + b1.toNat * 2 + b0.toNat * 1)

/-- `bitsToBytes`: consecutive chunks of 8; a trailing chunk shorter than 8 is dropped, with no error
and no padding (R97). -/
def bitsToBytes : List Bit → List Byte
  | b7 :: b6 :: b5 :: b4 :: b3 :: b2 :: b1 :: b0 :: rest =>
    byteOfBits b7 b6 b5 b4 b3 b2 b1 b0 :: bitsToBytes rest
  | _ => []

/-- `intToBits`: always 16 bits, most significant first (R98). -/
def intToBits (x : Half) : List Bit := (List.range 16).map fun j => x.getLsbD (15 - j)

/-- `bitsToInt`: the first 16 entries, most significant first, the rest ignored; no value for fewer than
16 entries (R99). -/
def bitsToInt (bits : List Bit) : Option Half :=
  if bits.length < 16 then none
  else some (BitVec.ofNat 16 ((bits.take 16).foldl (fun x b => x * 2 + b.toNat) 0))

/-- `lsbOf`: one bit per byte, its parity (R100). -/
def lsbOf (bytes : List Byte) : List Bit := bytes.map (·.getLsbD 0)

/-- `B2BITS` (R103): `seq(PAY)` to `BIT`. -/
def execB2bits (s : State) : Host.Outcome State Fault Refusal :=
  .next (complete (storeBit (bytesToBits (seqPay s)) s))

/-- `BITS2B` (R105): `seq(BIT)` to `OUT`; a length that is not a multiple of 8 is no error. -/
def execBits2b (s : State) : Host.Outcome State Fault Refusal :=
  .next (complete (storeOut (bitsToBytes (seqBit s)) s))

/-- `I2BITS` (R107): `INT` to 16 cells of `BIT`. -/
def execI2bits (s : State) : Host.Outcome State Fault Refusal :=
  .next (complete (storeBit (intToBits s.int) s))

/-- `BITS2I` (R109): the first 16 cells of `BIT` to `INT`; `IllegalOperation` when `BIT_LEN` < 16. -/
def execBits2i (s : State) : Host.Outcome State Fault Refusal :=
  match bitsToInt (seqBit s) with
  | none => .next (raise .illegalOperation s)
  | some x => .next (complete { s with int := x })

/-- `LSBOF` (R111): the parities of `seq(CAR)` to `BIT`. -/
def execLsbof (s : State) : Host.Outcome State Fault Refusal :=
  .next (complete (storeBit (lsbOf (seqCar s)) s))

end Sys2Proof.Machine
end

