-- ==== Sys2Proof/Machine/Framer.lean ====
section
/-! DEFINITION. The Steganographer (framer): frame, parity write, embed pass and extraction
(spec/42_framer.md R121 to R128) and its four commands (R129 to R134). -/

namespace Sys2Proof.Machine

/-- Length of the frame of an n-byte payload: 16 + 8n with a header, 8n without (R121). -/
def frameLength (useHeader : Bool) (n : Nat) : Nat := (if useHeader then Config.hdrW else 0) + 8 * n

/-- The frame: the payload's length in bits as a 16-bit header, if there is one, then the payload bits
(R121). -/
def frameOf (useHeader : Bool) (payload : List Byte) : List Bit :=
  if useHeader then intToBits (BitVec.ofNat 16 (8 * payload.length)) ++ bytesToBits payload
  else bytesToBits payload

/-- The parity write, the document's three cases (R122). -/
def setParity (b : Byte) (bit : Bit) : Byte :=
  if bit = true ∧ b.getLsbD 0 = false then b + 1
  else if bit = false ∧ b.getLsbD 0 = true then b - 1
  else b

/-- The embed pass over `CAR`, from cell i upward, one frame bit per carrier byte (R124). -/
def embedFrom : Nat → List Bit → State → State
  | _, [], s => s
  | i, bit :: frame, s => embedFrom (i + 1) frame (writeCar i (setParity (readCar i s) bit) s)

/-- `Embed` (R127): both checks come before the first carrier write, the header check first (R159). -/
def embed (useHeader : Bool) (s : State) : State :=
  let n := s.payLen.toNat
  let required := frameLength useHeader n
  if useHeader = true ∧ Config.hdrMax < 8 * n then raise .headerOverflow s
  else if s.carLen.toNat < required then raise (.capacityError required s.carLen.toNat) s
  else complete (embedFrom 0 (frameOf useHeader (seqPay s)) s)

/-- The header of the carrier, if it has 16 bytes to hold one; no carrier byte is read if not (R135). -/
def carrierHeader (s : State) : Option Half :=
  if s.carLen.toNat < Config.hdrW then none else bitsToInt (lsbOf (carSlice 0 Config.hdrW s))

/-- Step 3 of `Extract` (R128): the parities of a slice of the carrier, as bytes, to `OUT`. -/
def extractSlice (start count : Nat) (s : State) : State :=
  complete (storeOut (bitsToBytes (lsbOf (carSlice start count s))) s)

/-- `Extract` with a header (R128, R134): header first, then the length check, then the payload (R137). -/
def extractHeader (s : State) : State :=
  match carrierHeader s with
  | none => raise .truncatedCarrier s
  | some n =>
    if s.carLen.toNat < Config.hdrW + n.toNat then raise .truncatedCarrier s
    else extractSlice Config.hdrW n.toNat s

/-- `Extract` without a header (R128, R131): an absent known length is refused first (R132), a known
length beyond the carrier is truncation and is never clamped (R133). -/
def extractKnown (s : State) : State :=
  match knownLength s with
  | none => raise .illegalOperation s
  | some k =>
    if s.carLen.toNat < k then raise .truncatedCarrier s
    else extractSlice 0 k s

/-- `EMBED.RAW` (R129). -/
def execEmbedRaw (s : State) : Host.Outcome State Fault Refusal := .next (embed false s)

/-- `EMBED.HDR` (R130). -/
def execEmbedHdr (s : State) : Host.Outcome State Fault Refusal := .next (embed true s)

/-- `EXTRACT.RAW` (R131). -/
def execExtractRaw (s : State) : Host.Outcome State Fault Refusal := .next (extractKnown s)

/-- `EXTRACT.HDR` (R134). -/
def execExtractHdr (s : State) : Host.Outcome State Fault Refusal := .next (extractHeader s)

end Sys2Proof.Machine
end

