-- ==== Sys2Proof/Machine/Dispatch.lean ====
section
/-! DEFINITION. One arm per command: the meaning the spec gives it (spec/30_encoding.md R80). -/

namespace Sys2Proof.Machine

def exec (i : Instr) (s : State) : Host.Outcome State Fault Refusal :=
  match i with
  | .embedRaw => Sys2Proof.Machine.execEmbedRaw s
  | .embedHdr => Sys2Proof.Machine.execEmbedHdr s
  | .extractRaw => Sys2Proof.Machine.execExtractRaw s
  | .extractHdr => Sys2Proof.Machine.execExtractHdr s
  | .b2bits => Sys2Proof.Machine.execB2bits s
  | .bits2b => Sys2Proof.Machine.execBits2b s
  | .i2bits => Sys2Proof.Machine.execI2bits s
  | .bits2i => Sys2Proof.Machine.execBits2i s
  | .lsbof => Sys2Proof.Machine.execLsbof s

end Sys2Proof.Machine
end

