-- ==== Sys2Proof/WellFormed.lean ====
section
/-! DEFINITION. When the fields of a command word are those of a command (spec/30_encoding.md R77 to
R79): one check per way a word can be illegal (R83). A command has no operand to check (R81). -/

namespace Sys2Proof

/-- `RSV` must be 0 (R77). -/
def Fields.rsvOk (f : Fields) : Bool := f.rsv == 0

/-- In format F, `Z` (bit 2) must be 0 (R78). -/
def Fields.zOk (f : Fields) : Bool := f.cls || !f.sel.getLsbD 2

/-- In format C, `FN` is 0 to 4; 5, 6 and 7 are reserved (R79). -/
def Fields.fnOk (f : Fields) : Bool := !f.cls || decide (f.sel.toNat ≤ 4)

/-- The fields of one of the nine commands. -/
def Fields.wellFormed (f : Fields) : Bool := f.rsvOk && f.zOk && f.fnOk

end Sys2Proof
end

