-- ==== Sys2Proof/Decode.lean ====
section
/-! DEFINITION. Decoding a command word (spec/30_encoding.md R82), the encoder from the table of R80,
register numbers (spec/10_state.md R20) and the script notation (R85, R86). -/

namespace Sys2Proof

/-- The fields of a word (R77). -/
def fieldsOf (w : Word) : Fields :=
  { rsv := w.extractLsb' 4 28, cls := w.getLsbD 3, sel := w.extractLsb' 0 3 }

/-- Decoding, total on all 2^32 words; an illegal word is rejected by name (R82, R83). -/
def decode (w : Word) : Except IllegalWord Instr :=
  let f := fieldsOf w
  if f.rsv ≠ 0 then .error .reservedBits
  else if f.cls = false then
    if f.sel.getLsbD 2 then .error .formatFZ
    else match f.sel.getLsbD 1, f.sel.getLsbD 0 with
      | false, false => .ok .embedRaw
      | false, true => .ok .embedHdr
      | true, false => .ok .extractRaw
      | true, true => .ok .extractHdr
  else match f.sel.toNat with
    | 0 => .ok .b2bits
    | 1 => .ok .bits2b
    | 2 => .ok .i2bits
    | 3 => .ok .bits2i
    | 4 => .ok .lsbof
    | _ => .error .reservedFn

/-- The fields the table gives a command (R78, R79, R80). -/
def Instr.fields : Instr → Fields
  | .embedRaw => { rsv := 0, cls := false, sel := 0b000#3 }
  | .embedHdr => { rsv := 0, cls := false, sel := 0b001#3 }
  | .extractRaw => { rsv := 0, cls := false, sel := 0b010#3 }
  | .extractHdr => { rsv := 0, cls := false, sel := 0b011#3 }
  | .b2bits => { rsv := 0, cls := true, sel := 0b000#3 }
  | .bits2b => { rsv := 0, cls := true, sel := 0b001#3 }
  | .i2bits => { rsv := 0, cls := true, sel := 0b010#3 }
  | .bits2i => { rsv := 0, cls := true, sel := 0b011#3 }
  | .lsbof => { rsv := 0, cls := true, sel := 0b100#3 }

/-- A command whose fields pass the checks of R77 to R79. -/
def Instr.wellFormed (i : Instr) : Bool := i.fields.wellFormed

/-- The word with the given fields (R77). -/
def wordOf (f : Fields) : Word := f.rsv ++ (BitVec.ofBool f.cls ++ f.sel)

/-- The one word that selects a command (R80). -/
def encode (i : Instr) : Word := wordOf i.fields

/-- What the decoder reads from a word given as opcode-table bits, the bits above `nbits` being 0. A
command is one whole 32-bit word (R75): a bit above 31 belongs to no command. -/
def decodeTableWord (nbits w : Nat) : Option Instr :=
  if nbits ≤ 32 ∧ w < 2 ^ nbits then (decode (BitVec.ofNat 32 w)).toOption else none

/-- Register numbers 0 to 9; 10 and above do not exist (R20, R45). -/
def Reg.ofNumber : Nat → Option Reg
  | 0 => some .cmd
  | 1 => some .status
  | 2 => some .payLen
  | 3 => some .carLen
  | 4 => some .bitLen
  | 5 => some .outLen
  | 6 => some .knownLen
  | 7 => some .int
  | 8 => some .errReq
  | 9 => some .errAvail
  | _ => none

/-- The number of a register (R20). -/
def Reg.number : Reg → Nat
  | .cmd => 0
  | .status => 1
  | .payLen => 2
  | .carLen => 3
  | .bitLen => 4
  | .outLen => 5
  | .knownLen => 6
  | .int => 7
  | .errReq => 8
  | .errAvail => 9

/-- `wr REG, v` (R85). -/
def HostAction.wr (r : Reg) (v : Word) : HostAction := .write .reg r.number v

/-- `rd REG` (R85). -/
def HostAction.rd (r : Reg) : HostAction := .read .reg r.number

/-- `cmd MNEMONIC` (R85): the write of the command's word to `CMD`. -/
def HostAction.cmd (i : Instr) : HostAction := .wr .cmd (encode i)

/-- The cell writes of a `load`: `wrc SPACE[k], v0`, `wrc SPACE[k+1], v1`, ... (R86). -/
def loadCells (space : Space) : Nat → List Word → List HostAction
  | _, [] => []
  | k, v :: vs => .write space k v :: loadCells space (k + 1) vs

/-- `load SPACE, [v0, ...]`: the cells, then the length register (R86). -/
def loadScript (space : Space) (lenReg : Reg) (vs : List Word) : List HostAction :=
  loadCells space 0 vs ++ [.wr lenReg (BitVec.ofNat 32 vs.length)]

/-- `load PAY, [...]` (R86). -/
def loadPay (vs : List Byte) : List HostAction := loadScript .pay .payLen (vs.map (·.setWidth 32))

/-- `load CAR, [...]` (R86). -/
def loadCar (vs : List Byte) : List HostAction := loadScript .car .carLen (vs.map (·.setWidth 32))

/-- `load BIT, [...]` (R86). -/
def loadBit (vs : List Bit) : List HostAction :=
  loadScript .bit .bitLen (vs.map fun b => (BitVec.ofBool b).setWidth 32)

/-- `fill CAR, n, v` (R86). -/
def fillCar (n : Nat) (v : Byte) : List HostAction := loadCar (List.replicate n v)

/-- `setk n` (R86). -/
def setK (n : Word) : HostAction := .wr .knownLen n

/-- `embed h` (R86). -/
def embedAction (h : Bool) : HostAction := .cmd (if h then .embedHdr else .embedRaw)

/-- `extract h` (R86). -/
def extractAction (h : Bool) : HostAction := .cmd (if h then .extractHdr else .extractRaw)

end Sys2Proof
end

