-- ==== Sys2Proof/Machine/HostPort.lean ====
section
/-! DEFINITION. What the host can do to the block other than issue a command: reads and writes of
registers and cells, and reset (spec/70_reset_and_hazards.md R175, R179; spec/20_memory.md R59 to R61). -/

namespace Sys2Proof.Machine

/-- The number of cells of a space (R9, R50). -/
def spaceSize (space : Space) (z : Config.Sizes) : Nat :=
  match space with
  | .reg => Config.nReg
  | .pay => z.payMax
  | .car => z.carMax
  | .bit => bitMax z
  | .out => outMax z

/-- A register as the host reads it, zero-extended; `CMD` has no storage and reads 0 (R20 to R29, R59). -/
def readReg (r : Reg) (s : State) : Word :=
  match r with
  | .cmd => 0
  | .status => statusWord s.code s.klv
  | .payLen => s.payLen
  | .carLen => s.carLen
  | .bitLen => s.bitLen
  | .outLen => s.outLen
  | .knownLen => s.knownLen
  | .int => s.int.setWidth 32
  | .errReq => s.errReq
  | .errAvail => s.errAvail

/-- A host write of a register other than `CMD`: a length above its space's size is ignored (R34), a
write of `KNOWN_LEN` also sets `KLV` (R27), `INT` takes bits 15:0 (R28), read-only registers ignore
it (R61). `CMD` stores nothing (R21); the command its write issues is `issue`. -/
def writeReg (r : Reg) (w : Word) (s : State) : State :=
  match r with
  | .payLen => if w.toNat ≤ s.sizes.payMax then { s with payLen := w } else s
  | .carLen => if w.toNat ≤ s.sizes.carMax then { s with carLen := w } else s
  | .bitLen => if w.toNat ≤ bitMax s.sizes then { s with bitLen := w } else s
  | .knownLen => { s with knownLen := w, klv := true }
  | .int => { s with int := w.setWidth 16 }
  | .cmd | .status | .outLen | .errReq | .errAvail => s

/-- A host read: the register or cell, zero-extended; 0 outside the space (R45, R59, R60). -/
def hostRead (space : Space) (i : Nat) (s : State) : Word :=
  if i < spaceSize space s.sizes then
    match space with
    | .reg => match Reg.ofNumber i with
      | some r => readReg r s
      | none => 0
    | .pay => (readPay i s).setWidth 32
    | .car => (readCar i s).setWidth 32
    | .bit => (BitVec.ofBool (readBit i s)).setWidth 32
    | .out => (readOut i s).setWidth 32
  else 0

/-- A host write other than of `CMD`: a byte cell takes bits 7:0, a `BIT` cell bit 0 (R59); `OUT` and
everything outside a space ignore it (R45, R60, R61). -/
def hostWrite (space : Space) (i : Nat) (w : Word) (s : State) : State :=
  if i < spaceSize space s.sizes then
    match space with
    | .reg => match Reg.ofNumber i with
      | some r => writeReg r w s
      | none => s
    | .pay => writePay i (w.setWidth 8) s
    | .car => writeCar i (w.setWidth 8) s
    | .bit => writeBit i (w.getLsbD 0) s
    | .out => s
  else s

/-- The reset event (R175): every register at its reset value (R43), every cell unspecified again, with
free values that need not be those of the reset before (R44). The host's own side goes on. -/
def resetEvent (s : State) : State :=
  { State.reset with
    sizes := s.sizes, resets := s.resets + 1, script := s.script, replies := s.replies }

end Sys2Proof.Machine
end

