-- ==== Sys2Proof/Machine/Issue.lean ====
section
/-! DEFINITION. Issuing a command (spec/10_state.md R21, spec/30_encoding.md R76, R83) and performing one
action of the host (spec/70_reset_and_hazards.md R179). -/

namespace Sys2Proof.Machine

/-- The command word of a write, if it is a write of `CMD`, register 0 (R21). -/
def commandWord : HostAction → Option Word
  | .write .reg 0 w => some w
  | _ => none

/-- Issue a command word: decode it and run the command; an illegal word raises `IllegalOperation` and
changes nothing else (R76, R83). -/
def issue (w : Word) (s : State) : Host.Outcome State Fault Refusal :=
  match decode w with
  | .ok i => exec i s
  | .error _ => .next (raise .illegalOperation s)

/-- Perform one host action, completely, before the next (R66, R179). -/
def perform (a : HostAction) (s : State) : Host.Outcome State Fault Refusal :=
  match commandWord a with
  | some w => issue w s
  | none =>
    match a with
    | .write space i w => .next (hostWrite space i w s)
    | .read space i => .next { s with replies := s.replies ++ [hostRead space i s] }
    | .reset => .next (resetEvent s)

/-- The host's write of a command word to `CMD` (R21, R75), as its next action. -/
def queueCommand (w : Word) (s : State) : State :=
  { s with script := .write .reg 0 w :: s.script }

end Sys2Proof.Machine
end

