-- ==== Sys2Proof/Machine/Step.lean ====
section
/-! DEFINITION. One step: the host's next action, performed completely (spec/20_memory.md R66). -/

namespace Sys2Proof.Machine

/-- Take the host's next action off its script and perform it. With no action pending the block is idle
and nothing changes: it never acts except in response to the host (R10, R179). -/
def step (s : State) : Host.Outcome State Fault Refusal :=
  match s.script with
  | [] => .next s
  | a :: rest => perform a { s with script := rest }

/-- The state whose very next step issues the given word: the host's next action is the write of it to
`CMD`. There is no instruction fetch: the command word is the data of that write (R68). -/
def State.withFetchWord (s : State) (nbits w : Nat) : State :=
  queueCommand (BitVec.ofNat 32 (w % 2 ^ nbits)) s

end Sys2Proof.Machine
end

