-- ==== Sys2Proof/Machine/Run.lean ====
section
/-! DEFINITION. Running a script: its end state, and when a run has gone wrong
(spec/70_reset_and_hazards.md R189). -/

namespace Sys2Proof.Machine

/-- The state after the given number of steps. -/
def runFor : Nat → State → Host.Outcome State Fault Refusal
  | 0, s => .next s
  | n + 1, s =>
    match step s with
    | .next t => runFor n t
    | stopped => stopped

/-- The run of the whole script, which ends when its last action has been performed (R189). -/
def run (s : State) : Host.Outcome State Fault Refusal := runFor s.script.length s

/-- The action is a command and left, in `t`, a code other than `OK` that the script did not expect of
it (R189). -/
def endedUnexpectedly (expected : List ResultCode) (a : HostAction) (t : State) : Bool :=
  (commandWord a).isSome && decide (t.code ≠ .ok) && decide (t.code ∉ expected)

/-- Some command among the next `n` actions ended with a code other than `OK` that was not expected. The
k-th entry of the list holds the error codes the script expects of its k-th action; an action without an
entry is expected to end with `OK` (log 15). -/
def wentWrongIn : Nat → List (List ResultCode) → State → Bool
  | 0, _, _ => false
  | n + 1, expects, s =>
    match s.script, step s with
    | a :: _, .next t => endedUnexpectedly (expects.headD []) a t || wentWrongIn n expects.tail t
    | _, _ => false

/-- Some command of the whole run did (R189). -/
def wentWrong (expects : List (List ResultCode)) (s : State) : Bool :=
  wentWrongIn s.script.length expects s

end Sys2Proof.Machine
end

