-- ==== Sys2Proof/Safety.lean ====
section
/-! DEFINITION. The terms claims use: the invariant of the block, how a command ended, what a transition
keeps, and when a run has gone wrong. -/

namespace Sys2Proof.Machine

/-- Every length register is within its space (spec/10_state.md R34, R26). -/
abbrev State.LengthsLegal (s : State) : Prop :=
  s.payLen.toNat ≤ s.sizes.payMax ∧ s.carLen.toNat ≤ s.sizes.carMax ∧
    s.bitLen.toNat ≤ bitMax s.sizes ∧ s.outLen.toNat ≤ outMax s.sizes

/-- Every listed index is below the number of cells (spec/20_memory.md R51, R60). -/
def Memory.within {α : Type} (n : Nat) (m : Memory α) : Bool := m.all fun c => decide (c.1 < n)

/-- The four buffer spaces are in canonical form and list no cell that does not exist. -/
abbrev State.CellsLegal (s : State) : Prop :=
  (Memory.wf s.pay = true ∧ Memory.within s.sizes.payMax s.pay = true) ∧
    (Memory.wf s.car = true ∧ Memory.within s.sizes.carMax s.car = true) ∧
    (Memory.wf s.bit = true ∧ Memory.within (bitMax s.sizes) s.bit = true) ∧
    (Memory.wf s.out = true ∧ Memory.within (outMax s.sizes) s.out = true)

/-- The invariant of the block: legal sizes (R9), legal lengths (R34), legal spaces (R50, R51). -/
abbrev State.Inv (s : State) : Prop := s.sizes.Legal ∧ s.LengthsLegal ∧ s.CellsLegal

/-- The command that led to `t` ended with this report (R22, R29). -/
abbrev Ended (code : ResultCode) (required available : Nat) (t : State) : Prop :=
  t.code = code ∧ t.errReq.toNat = required ∧ t.errAvail.toNat = available

/-- `PAY_LEN` and every cell of `PAY` are as before. -/
abbrev KeepsPay (s t : State) : Prop := t.payLen = s.payLen ∧ ∀ i, readPay i t = readPay i s

/-- `CAR_LEN` and every cell of `CAR` are as before. -/
abbrev KeepsCar (s t : State) : Prop := t.carLen = s.carLen ∧ ∀ i, readCar i t = readCar i s

/-- `BIT_LEN` and every cell of `BIT` are as before. -/
abbrev KeepsBit (s t : State) : Prop := t.bitLen = s.bitLen ∧ ∀ i, readBit i t = readBit i s

/-- `OUT_LEN` and every cell of `OUT` are as before. -/
abbrev KeepsOut (s t : State) : Prop := t.outLen = s.outLen ∧ ∀ i, readOut i t = readOut i s

/-- `INT` is as before. -/
abbrev KeepsInt (s t : State) : Prop := t.int = s.int

/-- `KNOWN_LEN` and `STATUS.KLV` are as before. -/
abbrev KeepsKnown (s t : State) : Prop := t.knownLen = s.knownLen ∧ t.klv = s.klv

/-- The sizes, the free values' choice, the host's script and its replies are as before. -/
abbrev KeepsHostSide (s t : State) : Prop :=
  t.sizes = s.sizes ∧ t.resets = s.resets ∧ t.script = s.script ∧ t.replies = s.replies

/-- Everything but `STATUS.CODE`, `ERR_REQ` and `ERR_AVAIL` is as before (R157). -/
abbrev KeepsAllButReport (s t : State) : Prop :=
  t = { s with code := t.code, errReq := t.errReq, errAvail := t.errAvail }

/-- The two states agree on everything a command can read: lengths, the four operands below them,
`KNOWN_LEN`, `KLV`, `INT` (R11, R35, R37). -/
abbrev SameOperands (s t : State) : Prop :=
  t.payLen = s.payLen ∧ t.carLen = s.carLen ∧ t.bitLen = s.bitLen ∧ t.knownLen = s.knownLen ∧
    t.klv = s.klv ∧ t.int = s.int ∧ seqPay t = seqPay s ∧ seqCar t = seqCar s ∧ seqBit t = seqBit s

/-- The codes a command can end with (the table of spec/60_exceptions.md R156). -/
def allowedCodes : Instr → List ResultCode
  | .embedRaw => [.ok, .capacityError]
  | .embedHdr => [.ok, .capacityError, .headerOverflow]
  | .extractRaw => [.ok, .truncatedCarrier, .illegalOperation]
  | .extractHdr => [.ok, .truncatedCarrier]
  | .bits2i => [.ok, .illegalOperation]
  | .b2bits | .bits2b | .i2bits | .lsbof => [.ok]

/-- The run of the state's script has gone wrong: some command in it ended with a code other than `OK` that
the script did not expect of it (R189, log 15). -/
abbrev WentWrong (expects : List (List ResultCode)) (s : State) : Prop := wentWrong expects s = true

end Sys2Proof.Machine
end

