-- ==== Sys2Proof/Certificates/Slice0/Obligations.lean ====
section
/-! DEFINITION. The statements for the provers, from the numbered rules of spec/. `Inv` in a hypothesis is
the invariant that `StepKeepsInvariant` and `ResetMeetsInvariant` are about: legal sizes (R9), lengths
within their spaces (R34), canonical spaces. -/

open Sys2Proof Sys2Proof.Machine

/-! ### Encoding -/

/-- R80: "Each is selected by exactly one 32-bit value"; with R82, decoding and encoding agree on every
one of the 2^32 words. -/
def Obligations.DecodeAndEncodeAgree : Prop :=
  ∀ (w : Word) (i : Instr), decode w = .ok i ↔ w = encode i

/-- R80: the nine words of the table, each read as its command and written for it. -/
def Obligations.TableWordsSelectCommands : Prop :=
  (decode 0x00000000#32 = .ok .embedRaw ∧ encode .embedRaw = 0x00000000#32) ∧
    (decode 0x00000001#32 = .ok .embedHdr ∧ encode .embedHdr = 0x00000001#32) ∧
    (decode 0x00000002#32 = .ok .extractRaw ∧ encode .extractRaw = 0x00000002#32) ∧
    (decode 0x00000003#32 = .ok .extractHdr ∧ encode .extractHdr = 0x00000003#32) ∧
    (decode 0x00000008#32 = .ok .b2bits ∧ encode .b2bits = 0x00000008#32) ∧
    (decode 0x00000009#32 = .ok .bits2b ∧ encode .bits2b = 0x00000009#32) ∧
    (decode 0x0000000A#32 = .ok .i2bits ∧ encode .i2bits = 0x0000000A#32) ∧
    (decode 0x0000000B#32 = .ok .bits2i ∧ encode .bits2i = 0x0000000B#32) ∧
    (decode 0x0000000C#32 = .ok .lsbof ∧ encode .lsbof = 0x0000000C#32)

/-- R82: decoding, total on all 2^32 words: nine words give the nine commands, every other word is
illegal. -/
def Obligations.DecodingIsTotal : Prop :=
  ∀ w : Word,
    (w.toNat = 0 → decode w = .ok .embedRaw) ∧ (w.toNat = 1 → decode w = .ok .embedHdr) ∧
    (w.toNat = 2 → decode w = .ok .extractRaw) ∧ (w.toNat = 3 → decode w = .ok .extractHdr) ∧
    (w.toNat = 8 → decode w = .ok .b2bits) ∧ (w.toNat = 9 → decode w = .ok .bits2b) ∧
    (w.toNat = 10 → decode w = .ok .i2bits) ∧ (w.toNat = 11 → decode w = .ok .bits2i) ∧
    (w.toNat = 12 → decode w = .ok .lsbof) ∧
    ((16 ≤ w.toNat ∨ (4 ≤ w.toNat ∧ w.toNat ≤ 7) ∨ (13 ≤ w.toNat ∧ w.toNat ≤ 15)) →
      ∃ e, decode w = .error e)

/-- R83: a word with any of bits 31:4 set, 4 to 7, or 13 to 15, written to `CMD`, ends with
`IllegalOperation` and changes nothing but the report. -/
def Obligations.IllegalWordChangesOnlyTheReport : Prop :=
  ∀ (s : State) (w : Word),
    (16 ≤ w.toNat ∨ (4 ≤ w.toNat ∧ w.toNat ≤ 7) ∨ (13 ≤ w.toNat ∧ w.toNat ≤ 15)) →
    issue w s = .next { s with code := .illegalOperation, errReq := 0, errAvail := 0 }

/-! ### The step and the host's interface -/

/-- A step whose next host action writes a word to `CMD` runs the command the word decodes to, or raises
`IllegalOperation` if it decodes to none, on the state with the action taken off the script (R21, R76); a
word placed by `withFetchWord` is run by the very next step. The script is the model's form of the host
(log 4). -/
def Obligations.StepRunsDecodedCommand : Prop :=
  (∀ (s : State) (w : Word) (i : Instr) (rest : List HostAction),
    s.script = .write .reg 0 w :: rest → decode w = .ok i →
    step s = exec i { s with script := rest }) ∧
  (∀ (s : State) (w : Word) (e : IllegalWord) (rest : List HostAction),
    s.script = .write .reg 0 w :: rest → decode w = .error e →
    step s = .next (raise .illegalOperation { s with script := rest })) ∧
  (∀ (s : State) (w : Nat) (i : Instr), w < 2 ^ 32 → decodeTableWord 32 w = some i →
    step (s.withFetchWord 32 w) = exec i s)

/-- A step whose next host action is anything but a write of `CMD` performs that access, completely, and
takes it off the script (R66, R179): a write, a read whose value is added to the replies, or reset. The
script and the replies are the model's form of the host (log 4, log 5). -/
def Obligations.StepPerformsHostAccess : Prop :=
  (∀ (s : State) (space : Space) (i : Nat) (w : Word) (rest : List HostAction),
    s.script = .write space i w :: rest → ¬ (space = .reg ∧ i = 0) →
    step s = .next (hostWrite space i w { s with script := rest })) ∧
  (∀ (s : State) (space : Space) (i : Nat) (rest : List HostAction),
    s.script = .read space i :: rest →
    step s = .next { s with script := rest, replies := s.replies ++ [hostRead space i s] }) ∧
  (∀ (s : State) (rest : List HostAction), s.script = .reset :: rest →
    step s = .next (resetEvent { s with script := rest }))

/-- R10: with no host action pending the block does nothing (the script is the model's form of the host,
log 4). -/
def Obligations.IdleBlockDoesNothing : Prop :=
  ∀ s : State, s.script = [] → step s = .next s

/-- R160, R189: no state makes a step stop; every action completes. -/
def Obligations.EveryStepCompletes : Prop :=
  ∀ s : State, ∃ t, step s = .next t

/-- R9: the two sizes that follow from `CAR_MAX` and `PAY_MAX`. -/
def Obligations.DerivedSpaceSizes : Prop :=
  ∀ z : Config.Sizes, bitMax z = max (max (8 * z.payMax) z.carMax) 16 ∧
    outMax z = max (max (8 * z.payMax) z.carMax) 16 / 8 ∧ 16 ≤ bitMax z ∧ 8 * outMax z ≤ bitMax z

/-- R22: the fields of `STATUS`: `CODE` in bits 2:0, `KLV` in bit 8, every other bit 0. -/
def Obligations.StatusWordFields : Prop :=
  ∀ s : State, (readReg .status s).toNat % 8 = (codeNumber s.code).toNat ∧
    (readReg .status s).getLsbD 8 = s.klv ∧
    ∀ k, 3 ≤ k → k ≠ 8 → (readReg .status s).getLsbD k = false

/-- R151: the numbers of the five result codes. -/
def Obligations.ResultCodeNumbers : Prop :=
  codeNumber .ok = 0 ∧ codeNumber .capacityError = 1 ∧ codeNumber .headerOverflow = 2 ∧
    codeNumber .truncatedCarrier = 3 ∧ codeNumber .illegalOperation = 4

/-- R20, R21, R28: the ten register numbers, and what the host reads at each: every register whole,
zero-extended; `CMD` holds nothing and reads 0; `INT` is 16 bits. -/
def Obligations.RegistersReadWhole : Prop :=
  (Reg.number .cmd = 0 ∧ Reg.number .status = 1 ∧ Reg.number .payLen = 2 ∧ Reg.number .carLen = 3 ∧
    Reg.number .bitLen = 4 ∧ Reg.number .outLen = 5 ∧ Reg.number .knownLen = 6 ∧ Reg.number .int = 7 ∧
    Reg.number .errReq = 8 ∧ Reg.number .errAvail = 9) ∧
  (∀ s : State, hostRead .reg 0 s = 0 ∧ hostRead .reg 1 s = statusWord s.code s.klv ∧
    hostRead .reg 2 s = s.payLen ∧ hostRead .reg 3 s = s.carLen ∧ hostRead .reg 4 s = s.bitLen ∧
    hostRead .reg 5 s = s.outLen ∧ hostRead .reg 6 s = s.knownLen ∧
    (hostRead .reg 7 s).toNat = s.int.toNat ∧ (hostRead .reg 7 s).toNat < 65536 ∧
    hostRead .reg 8 s = s.errReq ∧ hostRead .reg 9 s = s.errAvail) ∧
  (∀ s : State, readReg .cmd s = 0 ∧ readReg .status s = statusWord s.code s.klv ∧
    readReg .payLen s = s.payLen ∧ readReg .carLen s = s.carLen ∧
    readReg .bitLen s = s.bitLen ∧ readReg .outLen s = s.outLen ∧
    readReg .knownLen s = s.knownLen ∧ (readReg .int s).toNat = s.int.toNat ∧
    (readReg .int s).toNat < 65536 ∧ readReg .errReq s = s.errReq ∧
    readReg .errAvail s = s.errAvail)

/-- A host write of a register other than `CMD`: the new value of that register (R23 to R28, R34, R61),
`KLV` (R27), and everything else as before. -/
def Obligations.HostWritesRegister : Prop :=
  ∀ (s : State) (r : Reg) (w : Word) (rest : List HostAction), r ≠ .cmd →
    s.script = .write .reg r.number w :: rest →
    ∃ t, step s = .next t ∧ t.script = rest ∧ t.replies = s.replies ∧
      t.sizes = s.sizes ∧ t.resets = s.resets ∧
      t.pay = s.pay ∧ t.car = s.car ∧ t.bit = s.bit ∧ t.out = s.out ∧
      t.code = s.code ∧ t.klv = (s.klv || decide (r = .knownLen)) ∧
      (∀ r', r' ≠ r → r' ≠ .status → readReg r' t = readReg r' s) ∧
      (r = .payLen → t.payLen = if w.toNat ≤ s.sizes.payMax then w else s.payLen) ∧
      (r = .carLen → t.carLen = if w.toNat ≤ s.sizes.carMax then w else s.carLen) ∧
      (r = .bitLen → t.bitLen =
        if w.toNat ≤ bitMax s.sizes then w else s.bitLen) ∧
      (r = .knownLen → t.knownLen = w) ∧
      (r = .int → (readReg .int t).toNat = w.toNat % 65536) ∧
      (r = .outLen → t.outLen = s.outLen) ∧
      (r = .errReq → t.errReq = s.errReq) ∧
      (r = .errAvail → t.errAvail = s.errAvail)

/-- R45, R61: registers 10 and above read 0 and ignore writes; `STATUS`, `OUT_LEN`, `ERR_REQ`, `ERR_AVAIL`
and the cells of `OUT` ignore writes; `CMD` reads 0. -/
def Obligations.AbsentAndReadOnlyState : Prop :=
  ∀ s : State,
    (∀ (i : Nat) (w : Word), 10 ≤ i → hostRead .reg i s = 0 ∧ hostWrite .reg i w s = s) ∧
    (∀ (r : Reg) (w : Word), (r = .status ∨ r = .outLen ∨ r = .errReq ∨ r = .errAvail) →
      hostWrite .reg r.number w s = s) ∧
    (∀ (i : Nat) (w : Word), hostWrite .out i w s = s) ∧
    hostRead .reg 0 s = 0

/-- A host write of a register number 10 or above, of a cell beyond its space or of a cell of `OUT` is
ignored (R45, R60, R61). -/
def Obligations.HostWriteOutsideIsIgnored : Prop :=
  ∀ (s : State) (space : Space) (i : Nat) (w : Word) (rest : List HostAction),
    s.script = .write space i w :: rest →
    (space = .reg ∧ 10 ≤ i ∨ space = .pay ∧ s.sizes.payMax ≤ i ∨
      space = .car ∧ s.sizes.carMax ≤ i ∨
      space = .bit ∧ bitMax s.sizes ≤ i ∨ space = .out) →
    step s = .next { s with script := rest }

/-- A host write of a cell of `PAY`, `CAR` or `BIT`: the cell takes the low bits of the data word (R59),
every other cell and every register is as before. -/
def Obligations.HostWritesCell : Prop :=
  ∀ (s : State) (space : Space) (i : Nat) (w : Word) (rest : List HostAction),
    s.script = .write space i w :: rest →
    (space = .pay ∧ i < s.sizes.payMax ∨ space = .car ∧ i < s.sizes.carMax ∨
      space = .bit ∧ i < bitMax s.sizes) →
    ∃ t, step s = .next t ∧ t.script = rest ∧ t.replies = s.replies ∧ t.sizes = s.sizes ∧
      (∀ r, readReg r t = readReg r s) ∧
      (∀ j, readPay j t =
        if space = .pay ∧ j = i then BitVec.ofNat 8 (w.toNat % 256) else readPay j s) ∧
      (∀ j, readCar j t =
        if space = .car ∧ j = i then BitVec.ofNat 8 (w.toNat % 256) else readCar j s) ∧
      (∀ j, readBit j t =
        if space = .bit ∧ j = i then decide (w.toNat % 2 = 1) else readBit j s) ∧
      (∀ j, readOut j t = readOut j s)

/-- A host read has no side effect (R64) and returns the register or the cell, zero-extended, or 0
outside the space (R20, R45, R59, R60). -/
def Obligations.HostReads : Prop :=
  ∀ (s : State) (space : Space) (i : Nat) (rest : List HostAction),
    s.script = .read space i :: rest →
    ∃ v : Word, step s = .next { s with script := rest, replies := s.replies ++ [v] } ∧
      (space = .reg → 10 ≤ i → v = 0) ∧
      (∀ r : Reg, space = .reg → i = r.number → v = readReg r s) ∧
      (space = .pay →
        v.toNat = if i < s.sizes.payMax then (readPay i s).toNat else 0) ∧
      (space = .car →
        v.toNat = if i < s.sizes.carMax then (readCar i s).toNat else 0) ∧
      (space = .bit →
        v.toNat = if i < bitMax s.sizes
          then (readBit i s).toNat else 0) ∧
      (space = .out →
        v.toNat = if i < outMax s.sizes
          then (readOut i s).toNat else 0)

/-- R66: a host read of a cell that the host has just written returns what that cell could take of the
data word. -/
def Obligations.ReadReturnsLastWrite : Prop :=
  ∀ (s : State) (space : Space) (i : Nat) (w : Word) (rest : List HostAction),
    s.script = .write space i w :: .read space i :: rest →
    (space = .pay ∧ i < s.sizes.payMax ∨ space = .car ∧ i < s.sizes.carMax ∨
      space = .bit ∧ i < bitMax s.sizes) →
    ∃ t u, step s = .next t ∧ step t = .next u ∧ u.script = rest ∧
      u.replies = s.replies ++
        [BitVec.ofNat 32 (w.toNat % (if space = .bit then 2 else 256))]

/-- R64: repeating a host write of the same value to anything but `CMD` leaves the state as after the
first. -/
def Obligations.RepeatedHostWriteChangesNothing : Prop :=
  ∀ (s : State) (space : Space) (i : Nat) (w : Word) (rest : List HostAction),
    ¬ (space = .reg ∧ i = 0) →
    s.script = .write space i w :: .write space i w :: rest →
    ∃ t, step s = .next t ∧ step t = .next { t with script := rest }

/-- R43: what reset leaves, of the initial state and after the reset event in any state: every register 0,
`KLV` 0, `CODE` 0, all four sequences empty, and every cell an unspecified value (R44). That an unspecified
cell reads as an unconstrained `Config` constant of the count of resets and the index is the model's form
of R44 (logs 2 and 3). -/
def Obligations.ResetLeavesRegistersZero : Prop :=
  ∀ z : State, (z = State.reset ∨ ∃ s, z = resetEvent s) →
    (∀ r, readReg r z = 0) ∧ z.klv = false ∧ z.code = .ok ∧
    seqPay z = [] ∧ seqCar z = [] ∧ seqBit z = [] ∧ seqOut z = [] ∧
    ∀ i, readPay i z = Config.freePay z.resets i ∧ readCar i z = Config.freeCar z.resets i ∧
      readBit i z = Config.freeBit z.resets i ∧ readOut i z = Config.freeOut z.resets i

/-- R176: what each command does straight after reset. -/
def Obligations.CommandsStraightAfterReset : Prop :=
  ∀ z : State, (z = State.reset ∨ ∃ s, z = resetEvent s) →
    (∃ t, exec .embedRaw z = .next t ∧ Ended .ok 0 0 t ∧ t.car = z.car) ∧
    (∃ t, exec .embedHdr z = .next t ∧ Ended .capacityError 16 0 t) ∧
    (∃ t, exec .extractHdr z = .next t ∧ Ended .truncatedCarrier 0 0 t) ∧
    (∃ t, exec .extractRaw z = .next t ∧ Ended .illegalOperation 0 0 t) ∧
    (∃ t, exec .bits2i z = .next t ∧ Ended .illegalOperation 0 0 t) ∧
    (∃ t, exec .b2bits z = .next t ∧ Ended .ok 0 0 t ∧ seqBit t = []) ∧
    (∃ t, exec .bits2b z = .next t ∧ Ended .ok 0 0 t ∧ seqOut t = []) ∧
    (∃ t, exec .lsbof z = .next t ∧ Ended .ok 0 0 t ∧ seqBit t = []) ∧
    (∃ t, exec .i2bits z = .next t ∧ Ended .ok 0 0 t ∧ seqBit t = List.replicate 16 false)

/-! ### The pure functions -/

/-- R96: `bytesToBits`, entry by entry. -/
def Obligations.BytesToBitsIsMsbFirst : Prop :=
  ∀ bytes : List Byte, (bytesToBits bytes).length = 8 * bytes.length ∧
    ∀ i, i < 8 * bytes.length →
      (bytesToBits bytes)[i]? = some ((bytes.getD (i / 8) 0).getLsbD (7 - i % 8))

/-- R97: `bitsToBytes`: floor(m / 8) bytes, each the weighted sum of its chunk; the last m mod 8 bits take
no part. -/
def Obligations.BitsToBytesDropsPartialChunk : Prop :=
  ∀ bits : List Bit, (bitsToBytes bits).length = bits.length / 8 ∧
    ∀ k, k < bits.length / 8 → ∃ b, (bitsToBytes bits)[k]? = some b ∧
      b.toNat = ∑ j ∈ Finset.range 8, (bits.getD (8 * k + j) false).toNat * 2 ^ (7 - j)

/-- R98: `intToBits`: always 16 entries, entry j is bit 15 - j. -/
def Obligations.IntToBitsIsMsbFirst : Prop :=
  ∀ x : Half, (intToBits x).length = 16 ∧
    ∀ j, j < 16 → (intToBits x)[j]? = some (x.getLsbD (15 - j))

/-- R99: `bitsToInt`: the weighted sum of the first 16 entries, whatever follows them; no value on fewer
than 16. -/
def Obligations.BitsToIntReadsFirstSixteen : Prop :=
  ∀ bits : List Bit, (bits.length < 16 → bitsToInt bits = none) ∧
    (16 ≤ bits.length → ∃ x, bitsToInt bits = some x ∧
      x.toNat = ∑ j ∈ Finset.range 16, (bits.getD j false).toNat * 2 ^ (15 - j))

/-- R100: `lsbOf`: as many entries as bytes, each the byte's parity. -/
def Obligations.LsbOfIsParity : Prop :=
  ∀ bytes : List Byte, (lsbOf bytes).length = bytes.length ∧
    ∀ (k : Nat) (b : Byte), bytes[k]? = some b → ∃ p : Bit, (lsbOf bytes)[k]? = some p ∧ p.toNat = b.toNat % 2

/-- R101: the byte round trip, and the other direction up to the last whole chunk. -/
def Obligations.ByteRoundTrip : Prop :=
  (∀ bytes : List Byte, bitsToBytes (bytesToBits bytes) = bytes) ∧
    ∀ bits : List Bit, bytesToBits (bitsToBytes bits) = bits.take (8 * (bits.length / 8)) ∧
      (bytesToBits (bitsToBytes bits) = bits ↔ bits.length % 8 = 0)

/-- R102: the integer round trip, and the other direction on the first 16 entries. -/
def Obligations.IntegerRoundTrip : Prop :=
  (∀ x : Half, bitsToInt (intToBits x) = some x) ∧
    ∀ bits : List Bit, 16 ≤ bits.length →
      ∃ x, bitsToInt bits = some x ∧ intToBits x = bits.take 16

/-- R123: the laws of the parity write: (a) and (c) bits 7:1 kept and the change at most 1, never out of
0 to 255; (b) the parity is the bit; (d) idempotent; (e) the last write wins. -/
def Obligations.ParityWriteLaws : Prop :=
  ∀ (b : Byte) (x y : Bit),
    (setParity b x).toNat = 2 * (b.toNat / 2) + x.toNat ∧
    (setParity b x).toNat % 2 = x.toNat ∧
    (setParity b x).toNat / 2 = b.toNat / 2 ∧
    (setParity b x).toNat ≤ b.toNat + 1 ∧ b.toNat ≤ (setParity b x).toNat + 1 ∧
    setParity (setParity b x) x = setParity b x ∧
    setParity (setParity b x) y = setParity b y

/-- R121: the frame: with a header, the payload's length in bits first, its most significant bit at index
0, then the payload bits; without one, the payload bits alone. -/
def Obligations.FrameIsHeaderThenPayload : Prop :=
  ∀ p : List Byte, frameOf false p = bytesToBits p ∧
    (8 * p.length ≤ 65535 →
      (frameOf true p).length = 16 + 8 * p.length ∧
      (∀ j, j < 16 → (frameOf true p)[j]? = some ((8 * p.length).testBit (15 - j))) ∧
      (frameOf true p).drop 16 = bytesToBits p)

/-! ### The codec commands: result, report and frame -/

/-- R103: `B2BITS`. -/
def Obligations.B2bitsStoresPayloadBits : Prop :=
  decode 0x00000008#32 = .ok .b2bits ∧
  ∀ s : State, s.Inv → ∃ t, exec .b2bits s = .next t ∧
    seqBit t = bytesToBits (seqPay s) ∧ t.bitLen.toNat = 8 * s.payLen.toNat ∧
    (∀ i, 8 * s.payLen.toNat ≤ i → readBit i t = readBit i s) ∧ Ended .ok 0 0 t ∧
    KeepsPay s t ∧ KeepsCar s t ∧ KeepsOut s t ∧ KeepsInt s t ∧ KeepsKnown s t ∧
    KeepsHostSide s t

/-- R105: `BITS2B`. -/
def Obligations.Bits2bStoresWholeChunks : Prop :=
  decode 0x00000009#32 = .ok .bits2b ∧
  ∀ s : State, ∃ t, exec .bits2b s = .next t ∧
    seqOut t = bitsToBytes (seqBit s) ∧ t.outLen.toNat = s.bitLen.toNat / 8 ∧
    (∀ i, s.bitLen.toNat / 8 ≤ i → readOut i t = readOut i s) ∧ Ended .ok 0 0 t ∧
    KeepsPay s t ∧ KeepsCar s t ∧ KeepsBit s t ∧ KeepsInt s t ∧ KeepsKnown s t ∧
    KeepsHostSide s t

/-- R107: `I2BITS`. -/
def Obligations.I2bitsStoresSixteenBits : Prop :=
  decode 0x0000000A#32 = .ok .i2bits ∧
  ∀ s : State, ∃ t, exec .i2bits s = .next t ∧
    seqBit t = intToBits s.int ∧ t.bitLen.toNat = 16 ∧
    (∀ i, 16 ≤ i → readBit i t = readBit i s) ∧ Ended .ok 0 0 t ∧
    KeepsPay s t ∧ KeepsCar s t ∧ KeepsOut s t ∧ KeepsInt s t ∧ KeepsKnown s t ∧
    KeepsHostSide s t

/-- R109: `BITS2I`, both ends. -/
def Obligations.Bits2iReadsOrRefuses : Prop :=
  decode 0x0000000B#32 = .ok .bits2i ∧
  ∀ s : State,
    (16 ≤ s.bitLen.toNat → ∃ t, exec .bits2i s = .next t ∧
      bitsToInt (seqBit s) = some t.int ∧ (readReg .int t).toNat = t.int.toNat ∧ Ended .ok 0 0 t ∧
      KeepsPay s t ∧ KeepsCar s t ∧ KeepsBit s t ∧ KeepsOut s t ∧ KeepsKnown s t ∧
      KeepsHostSide s t) ∧
    (s.bitLen.toNat < 16 → ∃ t, exec .bits2i s = .next t ∧ Ended .illegalOperation 0 0 t ∧
      KeepsAllButReport s t)

/-- R111: `LSBOF`. -/
def Obligations.LsbofStoresParities : Prop :=
  decode 0x0000000C#32 = .ok .lsbof ∧
  ∀ s : State, ∃ t, exec .lsbof s = .next t ∧
    seqBit t = lsbOf (seqCar s) ∧ t.bitLen = s.carLen ∧
    (∀ k, k < s.carLen.toNat → (readBit k t).toNat = (readCar k s).toNat % 2) ∧
    (∀ i, s.carLen.toNat ≤ i → readBit i t = readBit i s) ∧ Ended .ok 0 0 t ∧
    KeepsPay s t ∧ KeepsCar s t ∧ KeepsOut s t ∧ KeepsInt s t ∧ KeepsKnown s t ∧
    KeepsHostSide s t

/-- R106: `BITS2B` after `B2BITS` returns the payload. -/
def Obligations.Bits2bAfterB2bitsReturnsPayload : Prop :=
  ∀ s : State, s.Inv → ∃ t u, exec .b2bits s = .next t ∧ exec .bits2b t = .next u ∧
    seqOut u = seqPay s ∧ seqOut u = seqPay u ∧ u.outLen = u.payLen ∧ u.code = .ok

/-- R110: `BITS2I` after `I2BITS` returns the integer. -/
def Obligations.Bits2iAfterI2bitsReturnsInteger : Prop :=
  ∀ s : State, ∃ t u, exec .i2bits s = .next t ∧ exec .bits2i t = .next u ∧
    u.int = s.int ∧ u.code = .ok

/-- R113: `LSBOF` then `BITS2I` yields the header `EXTRACT.HDR` would read; `LSBOF` then `BITS2B` yields
what `EXTRACT.RAW` yields with `KNOWN_LEN` = `CAR_LEN`. -/
def Obligations.CodecCommandsComposeIntoFramer : Prop :=
  (∀ s : State, 16 ≤ s.carLen.toNat → ∃ t u, exec .lsbof s = .next t ∧ exec .bits2i t = .next u ∧
    carrierHeader s = some u.int ∧ u.code = .ok) ∧
  (∀ s : State, s.klv = true → s.knownLen = s.carLen →
    ∃ t u v, exec .lsbof s = .next t ∧ exec .bits2b t = .next u ∧ exec .extractRaw s = .next v ∧
      seqOut u = seqOut v ∧ u.outLen = v.outLen ∧ u.code = .ok ∧ v.code = .ok)

/-! ### The framer commands: result, report and frame -/

/-- R129: `EMBED.RAW`, both ends: the payload bits go into the parities of carrier cells 0 ..< 8n, or
`CapacityError` and nothing else. -/
def Obligations.EmbedRawWritesPayloadParities : Prop :=
  decode 0x00000000#32 = .ok .embedRaw ∧
  ∀ s : State, s.Inv →
    (8 * s.payLen.toNat ≤ s.carLen.toNat → ∃ t, exec .embedRaw s = .next t ∧ Ended .ok 0 0 t ∧
      (∀ i, i < 8 * s.payLen.toNat →
        readCar i t = setParity (readCar i s) ((bytesToBits (seqPay s)).getD i false)) ∧
      (∀ i, 8 * s.payLen.toNat ≤ i → readCar i t = readCar i s) ∧ t.carLen = s.carLen ∧
      KeepsPay s t ∧ KeepsBit s t ∧ KeepsOut s t ∧ KeepsInt s t ∧ KeepsKnown s t ∧
      KeepsHostSide s t) ∧
    (s.carLen.toNat < 8 * s.payLen.toNat → ∃ t, exec .embedRaw s = .next t ∧
      Ended .capacityError (8 * s.payLen.toNat) s.carLen.toNat t ∧ KeepsAllButReport s t)

/-- R130: `EMBED.HDR`, all three ends, `HeaderOverflow` tested first. -/
def Obligations.EmbedHdrWritesFrameParities : Prop :=
  decode 0x00000001#32 = .ok .embedHdr ∧
  ∀ s : State, s.Inv →
    (s.payLen.toNat ≤ 8191 → 16 + 8 * s.payLen.toNat ≤ s.carLen.toNat →
      ∃ t, exec .embedHdr s = .next t ∧ Ended .ok 0 0 t ∧
      (∀ i, i < 16 → readCar i t =
        setParity (readCar i s) ((8 * s.payLen.toNat).testBit (15 - i))) ∧
      (∀ i, i < 8 * s.payLen.toNat → readCar (16 + i) t =
        setParity (readCar (16 + i) s) ((bytesToBits (seqPay s)).getD i false)) ∧
      (∀ i, 16 + 8 * s.payLen.toNat ≤ i → readCar i t = readCar i s) ∧ t.carLen = s.carLen ∧
      KeepsPay s t ∧ KeepsBit s t ∧ KeepsOut s t ∧ KeepsInt s t ∧ KeepsKnown s t ∧
      KeepsHostSide s t) ∧
    (s.payLen.toNat ≤ 8191 → s.carLen.toNat < 16 + 8 * s.payLen.toNat →
      ∃ t, exec .embedHdr s = .next t ∧
      Ended .capacityError (16 + 8 * s.payLen.toNat) s.carLen.toNat t ∧ KeepsAllButReport s t) ∧
    (8192 ≤ s.payLen.toNat → ∃ t, exec .embedHdr s = .next t ∧
      Ended .headerOverflow 0 0 t ∧ KeepsAllButReport s t)

/-- R131, R132, R133: `EXTRACT.RAW`, all three ends, the absent known length tested first. -/
def Obligations.ExtractRawReadsKnownLength : Prop :=
  decode 0x00000002#32 = .ok .extractRaw ∧
  ∀ s : State,
    (s.klv = true → s.knownLen.toNat ≤ s.carLen.toNat → ∃ t, exec .extractRaw s = .next t ∧
      Ended .ok 0 0 t ∧
      seqOut t = bitsToBytes (lsbOf ((seqCar s).take s.knownLen.toNat)) ∧
      t.outLen.toNat = s.knownLen.toNat / 8 ∧
      (∀ i, s.knownLen.toNat / 8 ≤ i → readOut i t = readOut i s) ∧
      KeepsPay s t ∧ KeepsCar s t ∧ KeepsBit s t ∧ KeepsInt s t ∧ KeepsKnown s t ∧
      KeepsHostSide s t) ∧
    (s.klv = false → ∃ t, exec .extractRaw s = .next t ∧ Ended .illegalOperation 0 0 t ∧
      KeepsAllButReport s t) ∧
    (s.klv = true → s.carLen.toNat < s.knownLen.toNat → ∃ t, exec .extractRaw s = .next t ∧
      Ended .truncatedCarrier 0 0 t ∧ KeepsAllButReport s t)

/-- R134, R135, R136, R137: `EXTRACT.HDR`: with fewer than 16 carrier bytes `TruncatedCarrier`; else, N the
number the first 16 parities spell, `TruncatedCarrier` when 16 + N > `CAR_LEN` and otherwise floor(N / 8)
bytes of the parities that follow. `KNOWN_LEN` and `KLV` play no part. -/
def Obligations.ExtractHdrReadsHeaderThenPayload : Prop :=
  decode 0x00000003#32 = .ok .extractHdr ∧
  ∀ s : State,
    (s.carLen.toNat < 16 → ∃ t, exec .extractHdr s = .next t ∧ Ended .truncatedCarrier 0 0 t ∧
      KeepsAllButReport s t) ∧
    (16 ≤ s.carLen.toNat → ∀ n : Nat,
      n = ∑ j ∈ Finset.range 16, (readCar j s).toNat % 2 * 2 ^ (15 - j) →
      (16 + n ≤ s.carLen.toNat → ∃ t, exec .extractHdr s = .next t ∧ Ended .ok 0 0 t ∧
        seqOut t = bitsToBytes (lsbOf (((seqCar s).drop 16).take n)) ∧ t.outLen.toNat = n / 8 ∧
        (∀ i, n / 8 ≤ i → readOut i t = readOut i s) ∧
        KeepsPay s t ∧ KeepsCar s t ∧ KeepsBit s t ∧ KeepsInt s t ∧ KeepsKnown s t ∧
        KeepsHostSide s t) ∧
      (s.carLen.toNat < 16 + n → ∃ t, exec .extractHdr s = .next t ∧
        Ended .truncatedCarrier 0 0 t ∧ KeepsAllButReport s t))

/-- R139, for every carrier content: (a) what `EMBED.RAW` writes, `EXTRACT.RAW` with `KNOWN_LEN` = 8n
returns; (b) what `EMBED.HDR` writes, `EXTRACT.HDR` returns, with the header limit of 8191 bytes; and a raw
round trip with another `KNOWN_LEN` K returns the first floor(min(K, 8n) / 8) payload bytes, followed, for
K > 8n, by bytes made of the untouched parities. -/
def Obligations.EmbedThenExtractReturnsPayload : Prop :=
  (∀ (s : State) (k : Word), s.Inv → 8 * s.payLen.toNat ≤ s.carLen.toNat →
    k.toNat = 8 * s.payLen.toNat →
    ∃ t u, exec .embedRaw s = .next t ∧ exec .extractRaw (writeReg .knownLen k t) = .next u ∧
      u.code = .ok ∧ seqOut u = seqPay s ∧ seqOut u = seqPay u) ∧
  (∀ s : State, s.Inv → s.payLen.toNat ≤ 8191 → 16 + 8 * s.payLen.toNat ≤ s.carLen.toNat →
    ∃ t u, exec .embedHdr s = .next t ∧ exec .extractHdr t = .next u ∧
      u.code = .ok ∧ seqOut u = seqPay s ∧ seqOut u = seqPay u) ∧
  (∀ (s : State) (k : Word), s.Inv → 8 * s.payLen.toNat ≤ s.carLen.toNat →
    k.toNat ≤ s.carLen.toNat →
    ∃ t u, exec .embedRaw s = .next t ∧ exec .extractRaw (writeReg .knownLen k t) = .next u ∧
      u.code = .ok ∧
      seqOut u = (seqPay s).take (min k.toNat (8 * s.payLen.toNat) / 8) ++
        bitsToBytes (lsbOf (((seqCar s).take k.toNat).drop (8 * s.payLen.toNat))))

/-- R140: issuing the same embed command twice leaves the carrier as after the first. -/
def Obligations.EmbedIsIdempotent : Prop :=
  ∀ (s : State) (i : Instr), (i = .embedRaw ∨ i = .embedHdr) →
    ∃ t u, exec i s = .next t ∧ exec i t = .next u ∧
      u.code = t.code ∧ ∀ j, readCar j u = readCar j t

/-- R141, R142: the reachable boundary points. -/
def Obligations.EmbedBoundaries : Prop :=
  ∀ s : State, s.Inv →
    (s.carLen.toNat = 8 * s.payLen.toNat → ∃ t, exec .embedRaw s = .next t ∧ t.code = .ok) ∧
    (s.carLen.toNat + 1 = 8 * s.payLen.toNat → ∃ t, exec .embedRaw s = .next t ∧
      Ended .capacityError (8 * s.payLen.toNat) (8 * s.payLen.toNat - 1) t) ∧
    (s.payLen.toNat ≤ 8191 → s.carLen.toNat = 16 + 8 * s.payLen.toNat →
      ∃ t, exec .embedHdr s = .next t ∧ t.code = .ok) ∧
    (s.payLen.toNat ≤ 8191 → s.carLen.toNat = 15 + 8 * s.payLen.toNat →
      ∃ t, exec .embedHdr s = .next t ∧ t.code = .capacityError) ∧
    (s.payLen.toNat = 8191 → 65544 ≤ s.carLen.toNat →
      ∃ t, exec .embedHdr s = .next t ∧ t.code = .ok) ∧
    (s.payLen.toNat = 8192 → ∃ t, exec .embedHdr s = .next t ∧ t.code = .headerOverflow)

/-- R145: raw extraction of a header frame returns the two header bytes, high byte first, then the
payload. -/
def Obligations.RawExtractionOfHeaderFrame : Prop :=
  ∀ (s : State) (k : Word), s.Inv → s.payLen.toNat ≤ 8191 →
    16 + 8 * s.payLen.toNat ≤ s.carLen.toNat → k.toNat = 16 + 8 * s.payLen.toNat →
    ∃ t u, exec .embedHdr s = .next t ∧ exec .extractRaw (writeReg .knownLen k t) = .next u ∧
      u.code = .ok ∧
      seqOut u = BitVec.ofNat 8 (8 * s.payLen.toNat / 256) ::
        BitVec.ofNat 8 (8 * s.payLen.toNat % 256) :: seqPay s

/-! ### The whole machine -/

/-- Every step keeps the invariant: sizes legal, every length register within its space (R34), every
space canonical and listing only cells that exist (R51, R60, R9). -/
def Obligations.StepKeepsInvariant : Prop :=
  ∀ s t : State, s.Inv → step s = .next t → t.Inv

/-- The state after reset meets the invariant (R9, R43). -/
def Obligations.ResetMeetsInvariant : Prop := State.reset.Inv

/-- R160: every command on every state ends with one of the five codes, and after an error the state is
the state before except for the report. -/
def Obligations.ErrorsArePreciseAndTotal : Prop :=
  ∀ (i : Instr) (s : State), ∃ t, exec i s = .next t ∧ (t.code ≠ .ok → KeepsAllButReport s t)

/-- R156: which command can end with which code, complete: a command can end with a code exactly when the
table says so; `EXTRACT.RAW` ends with `IllegalOperation` exactly when `KLV` = 0 and `BITS2I` exactly when
`BIT_LEN` < 16; an illegal word always ends with `IllegalOperation`. -/
def Obligations.ResultCodeTable : Prop :=
  (∀ (i : Instr) (c : ResultCode),
    (∃ s t : State, s.Inv ∧ exec i s = .next t ∧ t.code = c) ↔ c ∈ allowedCodes i) ∧
  (∀ s t : State, exec .extractRaw s = .next t → (t.code = .illegalOperation ↔ s.klv = false)) ∧
  (∀ s t : State, exec .bits2i s = .next t → (t.code = .illegalOperation ↔ s.bitLen.toNat < 16)) ∧
  (∀ (w : Word) (e : IllegalWord) (s : State), decode w = .error e →
    ∃ t, issue w s = .next t ∧ t.code = .illegalOperation)

/-- R158, R29: `ERR_REQ` and `ERR_AVAIL` are the frame length and `CAR_LEN` on `CapacityError`, with
`ERR_REQ` the larger (R152), and 0 on every other code, `OK` included. -/
def Obligations.OnlyCapacityErrorRecordsValues : Prop :=
  ∀ (i : Instr) (s t : State), s.Inv → exec i s = .next t →
    (t.code = .capacityError →
      t.errReq.toNat = (if i = .embedHdr then 16 else 0) + 8 * s.payLen.toNat ∧
      t.errAvail = s.carLen ∧ t.errAvail.toNat < t.errReq.toNat) ∧
    (t.code ≠ .capacityError → t.errReq = 0 ∧ t.errAvail = 0)

/-- R179, R31, R24, R27: no command changes `PAY`, `PAY_LEN`, `CAR_LEN`, `KNOWN_LEN` or `KLV`, nor anything
of the host's. -/
def Obligations.CommandsLeaveInputsAlone : Prop :=
  ∀ (i : Instr) (s t : State), exec i s = .next t →
    KeepsPay s t ∧ t.carLen = s.carLen ∧ KeepsKnown s t ∧ KeepsHostSide s t

/-- R65: `EXTRACT.RAW`, `EXTRACT.HDR` and `LSBOF` leave every cell of `CAR` and `CAR_LEN` as they were,
with any result code. -/
def Obligations.ExtractAndLsbofLeaveCarrier : Prop :=
  ∀ (i : Instr) (s : State), (i = .extractRaw ∨ i = .extractHdr ∨ i = .lsbof) →
    ∃ t, exec i s = .next t ∧ KeepsCar s t

/-- R55, R179: bits 7:1 of a carrier byte are never changed by a command, and its bit 0 only by the two
embeds. -/
def Obligations.OnlyEmbedsChangeCarrierParities : Prop :=
  ∀ (i : Instr) (s t : State) (j : Nat), exec i s = .next t →
    (readCar j t).toNat / 2 = (readCar j s).toNat / 2 ∧
    (i ≠ .embedRaw → i ≠ .embedHdr → readCar j t = readCar j s)

/-- R143: the framer commands leave `BIT`, `BIT_LEN`, `INT`, `PAY`, `PAY_LEN`, `CAR_LEN`, `KNOWN_LEN` and
`KLV` alone; the embeds `OUT` and `OUT_LEN`, the extracts `CAR`. -/
def Obligations.FramerLeavesCodecStateAlone : Prop :=
  ∀ (i : Instr) (s : State),
    (i = .embedRaw ∨ i = .embedHdr ∨ i = .extractRaw ∨ i = .extractHdr) →
    ∃ t, exec i s = .next t ∧ KeepsBit s t ∧ KeepsInt s t ∧ KeepsPay s t ∧ t.carLen = s.carLen ∧
      KeepsKnown s t ∧ (i = .embedRaw ∨ i = .embedHdr → KeepsOut s t) ∧
      (i = .extractRaw ∨ i = .extractHdr → ∀ j, readCar j t = readCar j s)

/-- R11, R35: a command is a function of its operands: on two states that agree on the lengths, the
sequences below them, `KNOWN_LEN`, `KLV` and `INT`, it reports the same and leaves the same operands and
results, whatever `STATUS.CODE`, `ERR_REQ`, `ERR_AVAIL`, `OUT`, `OUT_LEN` and the cells beyond the lengths
hold. -/
def Obligations.CommandsDependOnOperandsOnly : Prop :=
  ∀ (i : Instr) (s₁ s₂ t₁ t₂ : State), SameOperands s₁ s₂ →
    exec i s₁ = .next t₁ → exec i s₂ = .next t₂ →
    t₂.code = t₁.code ∧ t₂.errReq = t₁.errReq ∧ t₂.errAvail = t₁.errAvail ∧ SameOperands t₁ t₂ ∧
    ((i = .bits2b ∨ i = .extractRaw ∨ i = .extractHdr) → t₁.code = .ok →
      t₂.outLen = t₁.outLen ∧ seqOut t₂ = seqOut t₁)

/-- R27: a host write of `KNOWN_LEN` sets `KLV`, reset clears it, and nothing else changes it. -/
def Obligations.OnlyHostAndResetChangeKlv : Prop :=
  ∀ s t : State, step s = .next t →
    t.klv = (match s.script.head? with
      | some .reset => false
      | some (.write .reg 6 _) => true
      | _ => s.klv)

/-- R9, R7: the sizes are constants of the block: no step changes them. -/
def Obligations.SizesNeverChange : Prop :=
  ∀ s t : State, step s = .next t → t.sizes = s.sizes

/-- R189: every run ends, with every action of its script performed, and it has gone wrong exactly when
some command of it, the action at index k, ended with a code other than `OK` that the script did not expect
of it. The script and the lists of expected codes are the model's form (logs 4 and 15). -/
def Obligations.RunEndsAndGoesWrongByCommand : Prop :=
  (∀ s : State, ∃ t, run s = .next t ∧ t.script = []) ∧
  (∀ (expects : List (List ResultCode)) (s : State), WentWrong expects s ↔
    ∃ (k : Nat) (w : Word) (t : State), s.script[k]? = some (.write .reg 0 w) ∧
      runFor (k + 1) s = .next t ∧ t.code ≠ .ok ∧ t.code ∉ expects.getD k [])
end

