-- ==== Sys2Proof/Laws/Memory.lean ====
section
/-! SUPPORT. The laws of one buffer space: what a read gives after a write, and that every write keeps
the canonical form and stays within the space. -/

namespace Sys2Proof.Machine

variable {α : Type}

theorem lookup_write (i j : Nat) (v : α) (m : Memory α) :
    Memory.lookup j (Memory.write i v m) = if j = i then some v else Memory.lookup j m := by
  induction m with
  | nil => simp [Memory.write, Memory.lookup]
  | cons c rest ih =>
    obtain ⟨k, w⟩ := c
    unfold Memory.write
    split
    · simp [Memory.lookup]
    split
    · subst_vars
      by_cases h : j = k <;> simp [Memory.lookup, h]
    · by_cases h : j = k
      · subst h
        have : j ≠ i := by omega
        simp [Memory.lookup, this]
      · simp [Memory.lookup, h, ih]

theorem lookup_writeSeq (i j : Nat) (vs : List α) (m : Memory α) :
    Memory.lookup j (Memory.writeSeq i vs m) =
      if i ≤ j ∧ j < i + vs.length then vs[j - i]? else Memory.lookup j m := by
  induction vs generalizing i m with
  | nil => simp [Memory.writeSeq]
  | cons v vs ih =>
    rw [Memory.writeSeq, ih, lookup_write]
    by_cases h : j = i
    · subst h; simp
    · by_cases h' : i + 1 ≤ j ∧ j < i + 1 + vs.length
      · have : j - i = (j - (i + 1)) + 1 := by omega
        have h'' : i ≤ j ∧ j < i + (v :: vs).length := by simp; omega
        rw [if_pos h', if_pos h'', this, List.getElem?_cons_succ]
      · have h'' : ¬ (i ≤ j ∧ j < i + (v :: vs).length) := by simp; omega
        rw [if_neg h', if_neg h'', if_neg h]

/-- Writing the same cell twice: the second write wins. -/
theorem write_write (i : Nat) (v w : α) (m : Memory α) :
    Memory.write i w (Memory.write i v m) = Memory.write i w m := by
  induction m with
  | nil => simp [Memory.write]
  | cons c rest ih =>
    obtain ⟨k, u⟩ := c
    by_cases h : i < k
    · simp [Memory.write, h]
    · by_cases h' : i = k
      · simp [Memory.write, h']
      · simp [Memory.write, h, h', ih]

theorem risesFrom_write (lo i : Nat) (v : α) (m : Memory α) (hlo : lo ≤ i)
    (h : Memory.risesFrom lo m = true) : Memory.risesFrom lo (Memory.write i v m) = true := by
  induction m generalizing lo with
  | nil => simp [Memory.write, Memory.risesFrom, hlo]
  | cons c rest ih =>
    obtain ⟨k, w⟩ := c
    simp only [Memory.risesFrom, Bool.and_eq_true, decide_eq_true_eq] at h
    unfold Memory.write
    split
    · next hik => simp [Memory.risesFrom, hlo, h.2]; omega
    split
    · next hik => subst hik; simp [Memory.risesFrom, h]
    · next h1 h2 => simp [Memory.risesFrom, h.1, ih (k + 1) (by omega) h.2]

/-- A write keeps the canonical form. -/
theorem wf_write (i : Nat) (v : α) (m : Memory α) (h : Memory.wf m = true) :
    Memory.wf (Memory.write i v m) = true := risesFrom_write 0 i v m (Nat.zero_le i) h

theorem wf_writeSeq (i : Nat) (vs : List α) (m : Memory α) (h : Memory.wf m = true) :
    Memory.wf (Memory.writeSeq i vs m) = true := by
  induction vs generalizing i m with
  | nil => exact h
  | cons v vs ih => exact ih (i + 1) _ (wf_write i v m h)

/-- A write of an existing cell lists only existing cells. -/
theorem within_write (n i : Nat) (v : α) (m : Memory α) (hi : i < n)
    (h : Memory.within n m = true) : Memory.within n (Memory.write i v m) = true := by
  induction m with
  | nil => simp [Memory.write, Memory.within, hi]
  | cons c rest ih =>
    obtain ⟨k, w⟩ := c
    simp only [Memory.within, List.all_cons, Bool.and_eq_true, decide_eq_true_eq] at h ih
    unfold Memory.write
    split
    · simp [Memory.within, hi, h.1]; simpa using h.2
    split
    · simp [Memory.within, hi]; simpa using h.2
    · have := ih h.2
      simp only [Memory.within, List.all_cons, Bool.and_eq_true, decide_eq_true_eq]
      exact ⟨h.1, this⟩

theorem within_writeSeq (n i : Nat) (vs : List α) (m : Memory α) (hi : i + vs.length ≤ n)
    (h : Memory.within n m = true) : Memory.within n (Memory.writeSeq i vs m) = true := by
  induction vs generalizing i m with
  | nil => exact h
  | cons v vs ih =>
    simp only [List.length_cons] at hi
    exact ih (i + 1) _ (by omega) (within_write n i v m (by omega) h)

end Sys2Proof.Machine
end

