-- ==== Sys2Proof/Laws/State.lean ====
section
/-! SUPPORT. One lemma per field per update of the state: what each shared operation puts into each
field. -/

namespace Sys2Proof.Machine

@[simp] theorem report_code (c : ResultCode) (q a : Word) (s : State) : (report c q a s).code = c := rfl
@[simp] theorem report_klv (c : ResultCode) (q a : Word) (s : State) : (report c q a s).klv = s.klv := rfl
@[simp] theorem report_payLen (c : ResultCode) (q a : Word) (s : State) : (report c q a s).payLen = s.payLen := rfl
@[simp] theorem report_carLen (c : ResultCode) (q a : Word) (s : State) : (report c q a s).carLen = s.carLen := rfl
@[simp] theorem report_bitLen (c : ResultCode) (q a : Word) (s : State) : (report c q a s).bitLen = s.bitLen := rfl
@[simp] theorem report_outLen (c : ResultCode) (q a : Word) (s : State) : (report c q a s).outLen = s.outLen := rfl
@[simp] theorem report_knownLen (c : ResultCode) (q a : Word) (s : State) : (report c q a s).knownLen = s.knownLen := rfl
@[simp] theorem report_int (c : ResultCode) (q a : Word) (s : State) : (report c q a s).int = s.int := rfl
@[simp] theorem report_errReq (c : ResultCode) (q a : Word) (s : State) : (report c q a s).errReq = q := rfl
@[simp] theorem report_errAvail (c : ResultCode) (q a : Word) (s : State) : (report c q a s).errAvail = a := rfl
@[simp] theorem report_pay (c : ResultCode) (q a : Word) (s : State) : (report c q a s).pay = s.pay := rfl
@[simp] theorem report_car (c : ResultCode) (q a : Word) (s : State) : (report c q a s).car = s.car := rfl
@[simp] theorem report_bit (c : ResultCode) (q a : Word) (s : State) : (report c q a s).bit = s.bit := rfl
@[simp] theorem report_out (c : ResultCode) (q a : Word) (s : State) : (report c q a s).out = s.out := rfl
@[simp] theorem report_sizes (c : ResultCode) (q a : Word) (s : State) : (report c q a s).sizes = s.sizes := rfl
@[simp] theorem report_resets (c : ResultCode) (q a : Word) (s : State) : (report c q a s).resets = s.resets := rfl
@[simp] theorem report_script (c : ResultCode) (q a : Word) (s : State) : (report c q a s).script = s.script := rfl
@[simp] theorem report_replies (c : ResultCode) (q a : Word) (s : State) : (report c q a s).replies = s.replies := rfl

@[simp] theorem complete_code (s : State) : (complete s).code = .ok := rfl
@[simp] theorem complete_klv (s : State) : (complete s).klv = s.klv := rfl
@[simp] theorem complete_payLen (s : State) : (complete s).payLen = s.payLen := rfl
@[simp] theorem complete_carLen (s : State) : (complete s).carLen = s.carLen := rfl
@[simp] theorem complete_bitLen (s : State) : (complete s).bitLen = s.bitLen := rfl
@[simp] theorem complete_outLen (s : State) : (complete s).outLen = s.outLen := rfl
@[simp] theorem complete_knownLen (s : State) : (complete s).knownLen = s.knownLen := rfl
@[simp] theorem complete_int (s : State) : (complete s).int = s.int := rfl
@[simp] theorem complete_errReq (s : State) : (complete s).errReq = 0 := rfl
@[simp] theorem complete_errAvail (s : State) : (complete s).errAvail = 0 := rfl
@[simp] theorem complete_pay (s : State) : (complete s).pay = s.pay := rfl
@[simp] theorem complete_car (s : State) : (complete s).car = s.car := rfl
@[simp] theorem complete_bit (s : State) : (complete s).bit = s.bit := rfl
@[simp] theorem complete_out (s : State) : (complete s).out = s.out := rfl
@[simp] theorem complete_sizes (s : State) : (complete s).sizes = s.sizes := rfl
@[simp] theorem complete_resets (s : State) : (complete s).resets = s.resets := rfl
@[simp] theorem complete_script (s : State) : (complete s).script = s.script := rfl
@[simp] theorem complete_replies (s : State) : (complete s).replies = s.replies := rfl

@[simp] theorem writePay_code (i : Nat) (v : Byte) (s : State) : (writePay i v s).code = s.code := rfl
@[simp] theorem writePay_klv (i : Nat) (v : Byte) (s : State) : (writePay i v s).klv = s.klv := rfl
@[simp] theorem writePay_payLen (i : Nat) (v : Byte) (s : State) : (writePay i v s).payLen = s.payLen := rfl
@[simp] theorem writePay_carLen (i : Nat) (v : Byte) (s : State) : (writePay i v s).carLen = s.carLen := rfl
@[simp] theorem writePay_bitLen (i : Nat) (v : Byte) (s : State) : (writePay i v s).bitLen = s.bitLen := rfl
@[simp] theorem writePay_outLen (i : Nat) (v : Byte) (s : State) : (writePay i v s).outLen = s.outLen := rfl
@[simp] theorem writePay_knownLen (i : Nat) (v : Byte) (s : State) : (writePay i v s).knownLen = s.knownLen := rfl
@[simp] theorem writePay_int (i : Nat) (v : Byte) (s : State) : (writePay i v s).int = s.int := rfl
@[simp] theorem writePay_errReq (i : Nat) (v : Byte) (s : State) : (writePay i v s).errReq = s.errReq := rfl
@[simp] theorem writePay_errAvail (i : Nat) (v : Byte) (s : State) : (writePay i v s).errAvail = s.errAvail := rfl
@[simp] theorem writePay_pay (i : Nat) (v : Byte) (s : State) : (writePay i v s).pay = Memory.write i v s.pay := rfl
@[simp] theorem writePay_car (i : Nat) (v : Byte) (s : State) : (writePay i v s).car = s.car := rfl
@[simp] theorem writePay_bit (i : Nat) (v : Byte) (s : State) : (writePay i v s).bit = s.bit := rfl
@[simp] theorem writePay_out (i : Nat) (v : Byte) (s : State) : (writePay i v s).out = s.out := rfl
@[simp] theorem writePay_sizes (i : Nat) (v : Byte) (s : State) : (writePay i v s).sizes = s.sizes := rfl
@[simp] theorem writePay_resets (i : Nat) (v : Byte) (s : State) : (writePay i v s).resets = s.resets := rfl
@[simp] theorem writePay_script (i : Nat) (v : Byte) (s : State) : (writePay i v s).script = s.script := rfl
@[simp] theorem writePay_replies (i : Nat) (v : Byte) (s : State) : (writePay i v s).replies = s.replies := rfl

@[simp] theorem writeCar_code (i : Nat) (v : Byte) (s : State) : (writeCar i v s).code = s.code := rfl
@[simp] theorem writeCar_klv (i : Nat) (v : Byte) (s : State) : (writeCar i v s).klv = s.klv := rfl
@[simp] theorem writeCar_payLen (i : Nat) (v : Byte) (s : State) : (writeCar i v s).payLen = s.payLen := rfl
@[simp] theorem writeCar_carLen (i : Nat) (v : Byte) (s : State) : (writeCar i v s).carLen = s.carLen := rfl
@[simp] theorem writeCar_bitLen (i : Nat) (v : Byte) (s : State) : (writeCar i v s).bitLen = s.bitLen := rfl
@[simp] theorem writeCar_outLen (i : Nat) (v : Byte) (s : State) : (writeCar i v s).outLen = s.outLen := rfl
@[simp] theorem writeCar_knownLen (i : Nat) (v : Byte) (s : State) : (writeCar i v s).knownLen = s.knownLen := rfl
@[simp] theorem writeCar_int (i : Nat) (v : Byte) (s : State) : (writeCar i v s).int = s.int := rfl
@[simp] theorem writeCar_errReq (i : Nat) (v : Byte) (s : State) : (writeCar i v s).errReq = s.errReq := rfl
@[simp] theorem writeCar_errAvail (i : Nat) (v : Byte) (s : State) : (writeCar i v s).errAvail = s.errAvail := rfl
@[simp] theorem writeCar_pay (i : Nat) (v : Byte) (s : State) : (writeCar i v s).pay = s.pay := rfl
@[simp] theorem writeCar_car (i : Nat) (v : Byte) (s : State) : (writeCar i v s).car = Memory.write i v s.car := rfl
@[simp] theorem writeCar_bit (i : Nat) (v : Byte) (s : State) : (writeCar i v s).bit = s.bit := rfl
@[simp] theorem writeCar_out (i : Nat) (v : Byte) (s : State) : (writeCar i v s).out = s.out := rfl
@[simp] theorem writeCar_sizes (i : Nat) (v : Byte) (s : State) : (writeCar i v s).sizes = s.sizes := rfl
@[simp] theorem writeCar_resets (i : Nat) (v : Byte) (s : State) : (writeCar i v s).resets = s.resets := rfl
@[simp] theorem writeCar_script (i : Nat) (v : Byte) (s : State) : (writeCar i v s).script = s.script := rfl
@[simp] theorem writeCar_replies (i : Nat) (v : Byte) (s : State) : (writeCar i v s).replies = s.replies := rfl

@[simp] theorem writeBit_code (i : Nat) (v : Bit) (s : State) : (writeBit i v s).code = s.code := rfl
@[simp] theorem writeBit_klv (i : Nat) (v : Bit) (s : State) : (writeBit i v s).klv = s.klv := rfl
@[simp] theorem writeBit_payLen (i : Nat) (v : Bit) (s : State) : (writeBit i v s).payLen = s.payLen := rfl
@[simp] theorem writeBit_carLen (i : Nat) (v : Bit) (s : State) : (writeBit i v s).carLen = s.carLen := rfl
@[simp] theorem writeBit_bitLen (i : Nat) (v : Bit) (s : State) : (writeBit i v s).bitLen = s.bitLen := rfl
@[simp] theorem writeBit_outLen (i : Nat) (v : Bit) (s : State) : (writeBit i v s).outLen = s.outLen := rfl
@[simp] theorem writeBit_knownLen (i : Nat) (v : Bit) (s : State) : (writeBit i v s).knownLen = s.knownLen := rfl
@[simp] theorem writeBit_int (i : Nat) (v : Bit) (s : State) : (writeBit i v s).int = s.int := rfl
@[simp] theorem writeBit_errReq (i : Nat) (v : Bit) (s : State) : (writeBit i v s).errReq = s.errReq := rfl
@[simp] theorem writeBit_errAvail (i : Nat) (v : Bit) (s : State) : (writeBit i v s).errAvail = s.errAvail := rfl
@[simp] theorem writeBit_pay (i : Nat) (v : Bit) (s : State) : (writeBit i v s).pay = s.pay := rfl
@[simp] theorem writeBit_car (i : Nat) (v : Bit) (s : State) : (writeBit i v s).car = s.car := rfl
@[simp] theorem writeBit_bit (i : Nat) (v : Bit) (s : State) : (writeBit i v s).bit = Memory.write i v s.bit := rfl
@[simp] theorem writeBit_out (i : Nat) (v : Bit) (s : State) : (writeBit i v s).out = s.out := rfl
@[simp] theorem writeBit_sizes (i : Nat) (v : Bit) (s : State) : (writeBit i v s).sizes = s.sizes := rfl
@[simp] theorem writeBit_resets (i : Nat) (v : Bit) (s : State) : (writeBit i v s).resets = s.resets := rfl
@[simp] theorem writeBit_script (i : Nat) (v : Bit) (s : State) : (writeBit i v s).script = s.script := rfl
@[simp] theorem writeBit_replies (i : Nat) (v : Bit) (s : State) : (writeBit i v s).replies = s.replies := rfl

@[simp] theorem storeBit_code (bs : List Bit) (s : State) : (storeBit bs s).code = s.code := rfl
@[simp] theorem storeBit_klv (bs : List Bit) (s : State) : (storeBit bs s).klv = s.klv := rfl
@[simp] theorem storeBit_payLen (bs : List Bit) (s : State) : (storeBit bs s).payLen = s.payLen := rfl
@[simp] theorem storeBit_carLen (bs : List Bit) (s : State) : (storeBit bs s).carLen = s.carLen := rfl
@[simp] theorem storeBit_bitLen (bs : List Bit) (s : State) : (storeBit bs s).bitLen = BitVec.ofNat 32 bs.length := rfl
@[simp] theorem storeBit_outLen (bs : List Bit) (s : State) : (storeBit bs s).outLen = s.outLen := rfl
@[simp] theorem storeBit_knownLen (bs : List Bit) (s : State) : (storeBit bs s).knownLen = s.knownLen := rfl
@[simp] theorem storeBit_int (bs : List Bit) (s : State) : (storeBit bs s).int = s.int := rfl
@[simp] theorem storeBit_errReq (bs : List Bit) (s : State) : (storeBit bs s).errReq = s.errReq := rfl
@[simp] theorem storeBit_errAvail (bs : List Bit) (s : State) : (storeBit bs s).errAvail = s.errAvail := rfl
@[simp] theorem storeBit_pay (bs : List Bit) (s : State) : (storeBit bs s).pay = s.pay := rfl
@[simp] theorem storeBit_car (bs : List Bit) (s : State) : (storeBit bs s).car = s.car := rfl
@[simp] theorem storeBit_bit (bs : List Bit) (s : State) : (storeBit bs s).bit = Memory.writeSeq 0 bs s.bit := rfl
@[simp] theorem storeBit_out (bs : List Bit) (s : State) : (storeBit bs s).out = s.out := rfl
@[simp] theorem storeBit_sizes (bs : List Bit) (s : State) : (storeBit bs s).sizes = s.sizes := rfl
@[simp] theorem storeBit_resets (bs : List Bit) (s : State) : (storeBit bs s).resets = s.resets := rfl
@[simp] theorem storeBit_script (bs : List Bit) (s : State) : (storeBit bs s).script = s.script := rfl
@[simp] theorem storeBit_replies (bs : List Bit) (s : State) : (storeBit bs s).replies = s.replies := rfl

@[simp] theorem storeOut_code (bs : List Byte) (s : State) : (storeOut bs s).code = s.code := rfl
@[simp] theorem storeOut_klv (bs : List Byte) (s : State) : (storeOut bs s).klv = s.klv := rfl
@[simp] theorem storeOut_payLen (bs : List Byte) (s : State) : (storeOut bs s).payLen = s.payLen := rfl
@[simp] theorem storeOut_carLen (bs : List Byte) (s : State) : (storeOut bs s).carLen = s.carLen := rfl
@[simp] theorem storeOut_bitLen (bs : List Byte) (s : State) : (storeOut bs s).bitLen = s.bitLen := rfl
@[simp] theorem storeOut_outLen (bs : List Byte) (s : State) : (storeOut bs s).outLen = BitVec.ofNat 32 bs.length := rfl
@[simp] theorem storeOut_knownLen (bs : List Byte) (s : State) : (storeOut bs s).knownLen = s.knownLen := rfl
@[simp] theorem storeOut_int (bs : List Byte) (s : State) : (storeOut bs s).int = s.int := rfl
@[simp] theorem storeOut_errReq (bs : List Byte) (s : State) : (storeOut bs s).errReq = s.errReq := rfl
@[simp] theorem storeOut_errAvail (bs : List Byte) (s : State) : (storeOut bs s).errAvail = s.errAvail := rfl
@[simp] theorem storeOut_pay (bs : List Byte) (s : State) : (storeOut bs s).pay = s.pay := rfl
@[simp] theorem storeOut_car (bs : List Byte) (s : State) : (storeOut bs s).car = s.car := rfl
@[simp] theorem storeOut_bit (bs : List Byte) (s : State) : (storeOut bs s).bit = s.bit := rfl
@[simp] theorem storeOut_out (bs : List Byte) (s : State) : (storeOut bs s).out = Memory.writeSeq 0 bs s.out := rfl
@[simp] theorem storeOut_sizes (bs : List Byte) (s : State) : (storeOut bs s).sizes = s.sizes := rfl
@[simp] theorem storeOut_resets (bs : List Byte) (s : State) : (storeOut bs s).resets = s.resets := rfl
@[simp] theorem storeOut_script (bs : List Byte) (s : State) : (storeOut bs s).script = s.script := rfl
@[simp] theorem storeOut_replies (bs : List Byte) (s : State) : (storeOut bs s).replies = s.replies := rfl

/-- The error entry touches the report only (R157). -/
theorem raise_eq (e : CommandError) (s : State) :
    raise e s = report (raise e s).code (raise e s).errReq (raise e s).errAvail s := by
  cases e <;> rfl

@[simp] theorem raise_klv (e : CommandError) (s : State) : (raise e s).klv = s.klv :=
  (congrArg State.klv (raise_eq e s)).trans rfl
@[simp] theorem raise_payLen (e : CommandError) (s : State) : (raise e s).payLen = s.payLen :=
  (congrArg State.payLen (raise_eq e s)).trans rfl
@[simp] theorem raise_carLen (e : CommandError) (s : State) : (raise e s).carLen = s.carLen :=
  (congrArg State.carLen (raise_eq e s)).trans rfl
@[simp] theorem raise_bitLen (e : CommandError) (s : State) : (raise e s).bitLen = s.bitLen :=
  (congrArg State.bitLen (raise_eq e s)).trans rfl
@[simp] theorem raise_outLen (e : CommandError) (s : State) : (raise e s).outLen = s.outLen :=
  (congrArg State.outLen (raise_eq e s)).trans rfl
@[simp] theorem raise_knownLen (e : CommandError) (s : State) : (raise e s).knownLen = s.knownLen :=
  (congrArg State.knownLen (raise_eq e s)).trans rfl
@[simp] theorem raise_int (e : CommandError) (s : State) : (raise e s).int = s.int :=
  (congrArg State.int (raise_eq e s)).trans rfl
@[simp] theorem raise_pay (e : CommandError) (s : State) : (raise e s).pay = s.pay :=
  (congrArg State.pay (raise_eq e s)).trans rfl
@[simp] theorem raise_car (e : CommandError) (s : State) : (raise e s).car = s.car :=
  (congrArg State.car (raise_eq e s)).trans rfl
@[simp] theorem raise_bit (e : CommandError) (s : State) : (raise e s).bit = s.bit :=
  (congrArg State.bit (raise_eq e s)).trans rfl
@[simp] theorem raise_out (e : CommandError) (s : State) : (raise e s).out = s.out :=
  (congrArg State.out (raise_eq e s)).trans rfl
@[simp] theorem raise_sizes (e : CommandError) (s : State) : (raise e s).sizes = s.sizes :=
  (congrArg State.sizes (raise_eq e s)).trans rfl
@[simp] theorem raise_resets (e : CommandError) (s : State) : (raise e s).resets = s.resets :=
  (congrArg State.resets (raise_eq e s)).trans rfl
@[simp] theorem raise_script (e : CommandError) (s : State) : (raise e s).script = s.script :=
  (congrArg State.script (raise_eq e s)).trans rfl
@[simp] theorem raise_replies (e : CommandError) (s : State) : (raise e s).replies = s.replies :=
  (congrArg State.replies (raise_eq e s)).trans rfl

/-- The embed pass touches `CAR` only (R124, R143). -/
theorem embedFrom_eq (i : Nat) (bs : List Bit) (s : State) :
    embedFrom i bs s = { s with car := (embedFrom i bs s).car } := by
  induction bs generalizing i s with
  | nil => rfl
  | cons b bs ih => rw [embedFrom, ih]; rfl

@[simp] theorem embedFrom_code (i : Nat) (bs : List Bit) (s : State) :
    (embedFrom i bs s).code = s.code := (congrArg State.code (embedFrom_eq i bs s)).trans rfl
@[simp] theorem embedFrom_klv (i : Nat) (bs : List Bit) (s : State) :
    (embedFrom i bs s).klv = s.klv := (congrArg State.klv (embedFrom_eq i bs s)).trans rfl
@[simp] theorem embedFrom_payLen (i : Nat) (bs : List Bit) (s : State) :
    (embedFrom i bs s).payLen = s.payLen := (congrArg State.payLen (embedFrom_eq i bs s)).trans rfl
@[simp] theorem embedFrom_carLen (i : Nat) (bs : List Bit) (s : State) :
    (embedFrom i bs s).carLen = s.carLen := (congrArg State.carLen (embedFrom_eq i bs s)).trans rfl
@[simp] theorem embedFrom_bitLen (i : Nat) (bs : List Bit) (s : State) :
    (embedFrom i bs s).bitLen = s.bitLen := (congrArg State.bitLen (embedFrom_eq i bs s)).trans rfl
@[simp] theorem embedFrom_outLen (i : Nat) (bs : List Bit) (s : State) :
    (embedFrom i bs s).outLen = s.outLen := (congrArg State.outLen (embedFrom_eq i bs s)).trans rfl
@[simp] theorem embedFrom_knownLen (i : Nat) (bs : List Bit) (s : State) :
    (embedFrom i bs s).knownLen = s.knownLen := (congrArg State.knownLen (embedFrom_eq i bs s)).trans rfl
@[simp] theorem embedFrom_int (i : Nat) (bs : List Bit) (s : State) :
    (embedFrom i bs s).int = s.int := (congrArg State.int (embedFrom_eq i bs s)).trans rfl
@[simp] theorem embedFrom_errReq (i : Nat) (bs : List Bit) (s : State) :
    (embedFrom i bs s).errReq = s.errReq := (congrArg State.errReq (embedFrom_eq i bs s)).trans rfl
@[simp] theorem embedFrom_errAvail (i : Nat) (bs : List Bit) (s : State) :
    (embedFrom i bs s).errAvail = s.errAvail := (congrArg State.errAvail (embedFrom_eq i bs s)).trans rfl
@[simp] theorem embedFrom_pay (i : Nat) (bs : List Bit) (s : State) :
    (embedFrom i bs s).pay = s.pay := (congrArg State.pay (embedFrom_eq i bs s)).trans rfl
@[simp] theorem embedFrom_bit (i : Nat) (bs : List Bit) (s : State) :
    (embedFrom i bs s).bit = s.bit := (congrArg State.bit (embedFrom_eq i bs s)).trans rfl
@[simp] theorem embedFrom_out (i : Nat) (bs : List Bit) (s : State) :
    (embedFrom i bs s).out = s.out := (congrArg State.out (embedFrom_eq i bs s)).trans rfl
@[simp] theorem embedFrom_sizes (i : Nat) (bs : List Bit) (s : State) :
    (embedFrom i bs s).sizes = s.sizes := (congrArg State.sizes (embedFrom_eq i bs s)).trans rfl
@[simp] theorem embedFrom_resets (i : Nat) (bs : List Bit) (s : State) :
    (embedFrom i bs s).resets = s.resets := (congrArg State.resets (embedFrom_eq i bs s)).trans rfl
@[simp] theorem embedFrom_script (i : Nat) (bs : List Bit) (s : State) :
    (embedFrom i bs s).script = s.script := (congrArg State.script (embedFrom_eq i bs s)).trans rfl
@[simp] theorem embedFrom_replies (i : Nat) (bs : List Bit) (s : State) :
    (embedFrom i bs s).replies = s.replies := (congrArg State.replies (embedFrom_eq i bs s)).trans rfl

end Sys2Proof.Machine
end

