-- ==== Sys2Proof/Laws/Ops.lean ====
section
/-! SUPPORT. What each shared operation over the state does, said once: cell reads after cell writes,
`store` (R36), the error entry (R157) and the sequences (R16). -/

namespace Sys2Proof.Machine

section Cells
variable {α : Type}

@[simp] theorem cells_length (read : Nat → α) (start count : Nat) :
    (cells read start count).length = count := by simp [cells]

theorem cells_getElem? (read : Nat → α) (start count k : Nat) (h : k < count) :
    (cells read start count)[k]? = some (read (start + k)) := by simp [cells, h]

theorem cells_congr {f g : Nat → α} (start count : Nat)
    (h : ∀ k, k < count → f (start + k) = g (start + k)) : cells f start count = cells g start count := by
  apply List.ext_getElem?
  intro k
  by_cases hk : k < count
  · rw [cells_getElem? _ _ _ _ hk, cells_getElem? _ _ _ _ hk, h k hk]
  · simp [cells, hk]

/-- A slice of the cells is the cells of the slice (R14). -/
theorem cells_slice (read : Nat → α) (start count k n : Nat) (h : k + n ≤ count) :
    ((cells read start count).drop k).take n = cells read (start + k) n := by
  apply List.ext_getElem?
  intro j
  by_cases hj : j < n
  · rw [List.getElem?_take_of_lt hj, List.getElem?_drop, cells_getElem? _ _ _ _ (by omega),
      cells_getElem? _ _ _ _ hj]
    congr 2; omega
  · simp [cells, hj]

/-- A list whose entries are the cells read is the sequence of those cells. -/
theorem cells_eq_of_getElem? (read : Nat → α) (count : Nat) (l : List α) (hl : l.length = count)
    (h : ∀ k, k < count → l[k]? = some (read k)) : cells read 0 count = l := by
  apply List.ext_getElem?
  intro k
  by_cases hk : k < count
  · rw [cells_getElem? _ _ _ _ hk, h k hk, Nat.zero_add]
  · rw [List.getElem?_eq_none (by simp; omega), List.getElem?_eq_none (by omega)]

end Cells

/-! Reads depend on the space and on the choice of free values only. -/

theorem readPay_congr {s t : State} (h : t.pay = s.pay) (hr : t.resets = s.resets) (i : Nat) :
    readPay i t = readPay i s := by simp [readPay, h, hr]

theorem readCar_congr {s t : State} (h : t.car = s.car) (hr : t.resets = s.resets) (i : Nat) :
    readCar i t = readCar i s := by simp [readCar, h, hr]

theorem readBit_congr {s t : State} (h : t.bit = s.bit) (hr : t.resets = s.resets) (i : Nat) :
    readBit i t = readBit i s := by simp [readBit, h, hr]

theorem readOut_congr {s t : State} (h : t.out = s.out) (hr : t.resets = s.resets) (i : Nat) :
    readOut i t = readOut i s := by simp [readOut, h, hr]

/-! A cell read after a cell write. -/

theorem readPay_writePay (i j : Nat) (v : Byte) (s : State) :
    readPay j (writePay i v s) = if j = i then v else readPay j s := by
  by_cases h : j = i <;> simp [readPay, lookup_write, h]

theorem readCar_writeCar (i j : Nat) (v : Byte) (s : State) :
    readCar j (writeCar i v s) = if j = i then v else readCar j s := by
  by_cases h : j = i <;> simp [readCar, lookup_write, h]

theorem readBit_writeBit (i j : Nat) (v : Bit) (s : State) :
    readBit j (writeBit i v s) = if j = i then v else readBit j s := by
  by_cases h : j = i <;> simp [readBit, lookup_write, h]

/-! `store` (R36): the cells of the result, everything else as before. -/

theorem readBit_storeBit (bs : List Bit) (s : State) (j : Nat) :
    readBit j (storeBit bs s) = (bs[j]?).getD (readBit j s) := by
  by_cases h : j < bs.length
  · simp [readBit, lookup_writeSeq, h]
  · simp [readBit, lookup_writeSeq, h]

theorem readOut_storeOut (bs : List Byte) (s : State) (j : Nat) :
    readOut j (storeOut bs s) = (bs[j]?).getD (readOut j s) := by
  by_cases h : j < bs.length
  · simp [readOut, lookup_writeSeq, h]
  · simp [readOut, lookup_writeSeq, h]

/-- After `store(BIT, bits)`, `seq(BIT)` is `bits`, when its length fits the length register (R36). -/
theorem seqBit_storeBit (bs : List Bit) (s : State) (h : bs.length < 4294967296) :
    seqBit (storeBit bs s) = bs := by
  have hl : (storeBit bs s).bitLen.toNat = bs.length := by
    simp only [storeBit_bitLen, BitVec.toNat_ofNat]; omega
  rw [seqBit, hl]
  refine cells_eq_of_getElem? _ _ _ rfl fun k hk => ?_
  simp [readBit_storeBit, hk]

/-- After `store(OUT, bytes)`, `seq(OUT)` is `bytes`, when its length fits the length register (R36). -/
theorem seqOut_storeOut (bs : List Byte) (s : State) (h : bs.length < 4294967296) :
    seqOut (storeOut bs s) = bs := by
  have hl : (storeOut bs s).outLen.toNat = bs.length := by
    simp only [storeOut_outLen, BitVec.toNat_ofNat]; omega
  rw [seqOut, hl]
  refine cells_eq_of_getElem? _ _ _ rfl fun k hk => ?_
  simp [readOut_storeOut, hk]

/-! The report leaves every cell and sequence alone (R157). -/

@[simp] theorem readPay_report (i : Nat) (c : ResultCode) (q a : Word) (s : State) :
    readPay i (report c q a s) = readPay i s := rfl
@[simp] theorem readCar_report (i : Nat) (c : ResultCode) (q a : Word) (s : State) :
    readCar i (report c q a s) = readCar i s := rfl
@[simp] theorem readBit_report (i : Nat) (c : ResultCode) (q a : Word) (s : State) :
    readBit i (report c q a s) = readBit i s := rfl
@[simp] theorem readOut_report (i : Nat) (c : ResultCode) (q a : Word) (s : State) :
    readOut i (report c q a s) = readOut i s := rfl
@[simp] theorem readPay_complete (i : Nat) (s : State) : readPay i (complete s) = readPay i s := rfl
@[simp] theorem readCar_complete (i : Nat) (s : State) : readCar i (complete s) = readCar i s := rfl
@[simp] theorem readBit_complete (i : Nat) (s : State) : readBit i (complete s) = readBit i s := rfl
@[simp] theorem readOut_complete (i : Nat) (s : State) : readOut i (complete s) = readOut i s := rfl
@[simp] theorem seqPay_complete (s : State) : seqPay (complete s) = seqPay s := rfl
@[simp] theorem seqCar_complete (s : State) : seqCar (complete s) = seqCar s := rfl
@[simp] theorem seqBit_complete (s : State) : seqBit (complete s) = seqBit s := rfl
@[simp] theorem seqOut_complete (s : State) : seqOut (complete s) = seqOut s := rfl

@[simp] theorem readPay_storeBit (i : Nat) (bs : List Bit) (s : State) :
    readPay i (storeBit bs s) = readPay i s := rfl
@[simp] theorem readCar_storeBit (i : Nat) (bs : List Bit) (s : State) :
    readCar i (storeBit bs s) = readCar i s := rfl
@[simp] theorem readOut_storeBit (i : Nat) (bs : List Bit) (s : State) :
    readOut i (storeBit bs s) = readOut i s := rfl
@[simp] theorem readPay_storeOut (i : Nat) (bs : List Byte) (s : State) :
    readPay i (storeOut bs s) = readPay i s := rfl
@[simp] theorem readCar_storeOut (i : Nat) (bs : List Byte) (s : State) :
    readCar i (storeOut bs s) = readCar i s := rfl
@[simp] theorem readBit_storeOut (i : Nat) (bs : List Byte) (s : State) :
    readBit i (storeOut bs s) = readBit i s := rfl

/-- Everything the error entry can do: it is a report, with a code other than `OK`, and values other than
0 only for `CapacityError` (R157, R158). -/
theorem raise_cases (e : CommandError) (s : State) :
    (∃ required available, e = .capacityError required available ∧
      raise e s = report .capacityError (BitVec.ofNat 32 required) (BitVec.ofNat 32 available) s) ∨
    (∃ c, c ≠ .ok ∧ c ≠ .capacityError ∧ raise e s = report c 0 0 s) := by
  cases e with
  | capacityError r a => exact .inl ⟨r, a, rfl, rfl⟩
  | headerOverflow => exact .inr ⟨.headerOverflow, by decide, by decide, rfl⟩
  | truncatedCarrier => exact .inr ⟨.truncatedCarrier, by decide, by decide, rfl⟩
  | illegalOperation => exact .inr ⟨.illegalOperation, by decide, by decide, rfl⟩

end Sys2Proof.Machine
end

