-- ==== Sys2Proof/Laws/BitCodec.lean ====
section
/-! SUPPORT. Lengths of the BitCodec's results (spec/41_bitcodec.md) and what each codec command does, as
one equation per command or one case split. -/

namespace Sys2Proof.Machine

@[simp] theorem byteBits_length (b : Byte) : (byteBits b).length = 8 := by simp [byteBits]

@[simp] theorem bytesToBits_nil : bytesToBits [] = [] := rfl

theorem bytesToBits_cons (b : Byte) (bs : List Byte) :
    bytesToBits (b :: bs) = byteBits b ++ bytesToBits bs := by simp [bytesToBits]

theorem bytesToBits_length (bs : List Byte) : (bytesToBits bs).length = 8 * bs.length := by
  induction bs with
  | nil => rfl
  | cons b bs ih => rw [bytesToBits_cons, List.length_append, ih, byteBits_length, List.length_cons]; omega

/-- One chunk of eight bits comes off the front (R97). -/
theorem bitsToBytes_chunk (b7 b6 b5 b4 b3 b2 b1 b0 : Bit) (rest : List Bit) :
    bitsToBytes (b7 :: b6 :: b5 :: b4 :: b3 :: b2 :: b1 :: b0 :: rest) =
      byteOfBits b7 b6 b5 b4 b3 b2 b1 b0 :: bitsToBytes rest := by rw [bitsToBytes]

/-- Fewer than eight bits give no byte (R97). -/
theorem bitsToBytes_short (bits : List Bit) (h : bits.length < 8) : bitsToBytes bits = [] := by
  match bits with
  | [] | [_] | [_, _] | [_, _, _] | [_, _, _, _] | [_, _, _, _, _] | [_, _, _, _, _, _]
  | [_, _, _, _, _, _, _] => rfl
  | _ :: _ :: _ :: _ :: _ :: _ :: _ :: _ :: _ => simp only [List.length_cons] at h; omega

theorem bitsToBytes_length (bits : List Bit) : (bitsToBytes bits).length = bits.length / 8 := by
  fun_induction bitsToBytes bits with
  | case1 => simp only [List.length_cons, *]; omega
  | case2 bits h =>
    have : bits.length < 8 := by
      by_contra hn
      match bits, h, hn with
      | b7 :: b6 :: b5 :: b4 :: b3 :: b2 :: b1 :: b0 :: rest, h, _ => exact h _ _ _ _ _ _ _ _ _ rfl
      | [], _, hn | [_], _, hn | [_, _], _, hn | [_, _, _], _, hn | [_, _, _, _], _, hn
      | [_, _, _, _, _], _, hn | [_, _, _, _, _, _], _, hn | [_, _, _, _, _, _, _], _, hn => simp at hn
    simp only [List.length_nil]; omega

@[simp] theorem intToBits_length (x : Half) : (intToBits x).length = 16 := by simp [intToBits]

@[simp] theorem lsbOf_length (bs : List Byte) : (lsbOf bs).length = bs.length := by simp [lsbOf]

/-- `bitsToInt` has a value exactly on 16 entries or more (R99). -/
theorem bitsToInt_eq_none_iff (bits : List Bit) : bitsToInt bits = none ↔ bits.length < 16 := by
  simp [bitsToInt]

@[simp] theorem seqPay_length (s : State) : (seqPay s).length = s.payLen.toNat := cells_length _ _ _
@[simp] theorem seqCar_length (s : State) : (seqCar s).length = s.carLen.toNat := cells_length _ _ _
@[simp] theorem seqBit_length (s : State) : (seqBit s).length = s.bitLen.toNat := cells_length _ _ _
@[simp] theorem seqOut_length (s : State) : (seqOut s).length = s.outLen.toNat := cells_length _ _ _
@[simp] theorem carSlice_length (start count : Nat) (s : State) :
    (carSlice start count s).length = count := cells_length _ _ _

/-- Everything `BITS2I` can do (R109). -/
theorem execBits2i_cases (s : State) :
    (s.bitLen.toNat < 16 ∧ execBits2i s = .next (raise .illegalOperation s)) ∨
    (16 ≤ s.bitLen.toNat ∧ ∃ x, bitsToInt (seqBit s) = some x ∧
      execBits2i s = .next (complete { s with int := x })) := by
  unfold execBits2i
  rcases h : bitsToInt (seqBit s) with _ | x
  · rw [bitsToInt_eq_none_iff, seqBit_length] at h
    exact .inl ⟨h, rfl⟩
  · refine .inr ⟨?_, x, rfl, rfl⟩
    by_contra hn
    rw [(bitsToInt_eq_none_iff _).2 (by simpa using hn)] at h
    simp at h

end Sys2Proof.Machine
end

