-- ==== Sys2Proof/Laws/Framer.lean ====
section
/-! SUPPORT. What the framer's parts do (spec/42_framer.md R121 to R128): the embed pass cell by cell, and
one case split each for `Embed` and the two forms of `Extract`. -/

namespace Sys2Proof.Machine

theorem frameOf_length (h : Bool) (p : List Byte) : (frameOf h p).length = frameLength h p.length := by
  cases h <;> simp [frameOf, frameLength, bytesToBits_length, Config.hdrW]

/-- The embed pass, cell by cell: cell i + k takes frame bit k, every other cell is as before (R124). -/
theorem readCar_embedFrom (i j : Nat) (frame : List Bit) (s : State) :
    readCar j (embedFrom i frame s) =
      if i ≤ j ∧ j < i + frame.length then setParity (readCar j s) (frame.getD (j - i) false)
      else readCar j s := by
  induction frame generalizing i s with
  | nil => simp [embedFrom]
  | cons b bs ih =>
    rw [embedFrom, ih, readCar_writeCar]
    simp only [List.length_cons]
    by_cases h : j = i
    · subst h; simp
    · rw [if_neg h]
      by_cases h' : i + 1 ≤ j ∧ j < i + 1 + bs.length
      · have h2 : j - i = (j - (i + 1)) + 1 := by omega
        rw [if_pos h', if_pos (by omega), h2, List.getD_cons_succ]
      · rw [if_neg h', if_neg (by omega)]

theorem wf_embedFrom (i : Nat) (frame : List Bit) (s : State) (h : Memory.wf s.car = true) :
    Memory.wf (embedFrom i frame s).car = true := by
  induction frame generalizing i s with
  | nil => exact h
  | cons b bs ih => exact ih (i + 1) _ (wf_write _ _ _ h)

theorem within_embedFrom (n i : Nat) (frame : List Bit) (s : State) (hi : i + frame.length ≤ n)
    (h : Memory.within n s.car = true) : Memory.within n (embedFrom i frame s).car = true := by
  induction frame generalizing i s with
  | nil => exact h
  | cons b bs ih =>
    simp only [List.length_cons] at hi
    exact ih (i + 1) _ (by omega) (within_write _ _ _ _ (by omega) h)

/-- Everything `Embed` can do, in the order of its checks (R127, R159). -/
theorem embed_cases (h : Bool) (s : State) :
    (h = true ∧ 65535 < 8 * s.payLen.toNat ∧ embed h s = raise .headerOverflow s) ∨
    (¬ (h = true ∧ 65535 < 8 * s.payLen.toNat) ∧ s.carLen.toNat < frameLength h s.payLen.toNat ∧
      embed h s = raise (.capacityError (frameLength h s.payLen.toNat) s.carLen.toNat) s) ∨
    (¬ (h = true ∧ 65535 < 8 * s.payLen.toNat) ∧ frameLength h s.payLen.toNat ≤ s.carLen.toNat ∧
      embed h s = complete (embedFrom 0 (frameOf h (seqPay s)) s)) := by
  unfold embed
  simp only [Config.hdrMax]
  by_cases hh : h = true ∧ 65535 < 8 * s.payLen.toNat
  · exact .inl ⟨hh.1, hh.2, by rw [if_pos hh]⟩
  · rw [if_neg hh]
    by_cases hc : s.carLen.toNat < frameLength h s.payLen.toNat
    · exact .inr (.inl ⟨hh, hc, by rw [if_pos hc]⟩)
    · exact .inr (.inr ⟨hh, by omega, by rw [if_neg hc]⟩)

/-- The header is read exactly when the carrier has 16 bytes (R135). -/
theorem carrierHeader_cases (s : State) :
    (s.carLen.toNat < 16 ∧ carrierHeader s = none) ∨
    (16 ≤ s.carLen.toNat ∧ ∃ x, carrierHeader s = some x ∧
      bitsToInt (lsbOf (carSlice 0 16 s)) = some x) := by
  unfold carrierHeader
  simp only [Config.hdrW]
  by_cases h : s.carLen.toNat < 16
  · exact .inl ⟨h, by rw [if_pos h]⟩
  · rw [if_neg h]
    refine .inr ⟨by omega, ?_⟩
    rcases hx : bitsToInt (lsbOf (carSlice 0 16 s)) with _ | x
    · rw [bitsToInt_eq_none_iff] at hx; simp at hx
    · exact ⟨x, rfl, rfl⟩

/-- Everything `Extract` with a header can do (R128, R137). -/
theorem extractHeader_cases (s : State) :
    (s.carLen.toNat < 16 ∧ extractHeader s = raise .truncatedCarrier s) ∨
    (∃ x, 16 ≤ s.carLen.toNat ∧ carrierHeader s = some x ∧ s.carLen.toNat < 16 + x.toNat ∧
      extractHeader s = raise .truncatedCarrier s) ∨
    (∃ x, 16 ≤ s.carLen.toNat ∧ carrierHeader s = some x ∧ 16 + x.toNat ≤ s.carLen.toNat ∧
      extractHeader s = extractSlice 16 x.toNat s) := by
  unfold extractHeader
  simp only [Config.hdrW]
  rcases carrierHeader_cases s with ⟨h, hn⟩ | ⟨h, x, hx, -⟩
  · exact .inl ⟨h, by rw [hn]⟩
  · rw [hx]
    by_cases hc : s.carLen.toNat < 16 + x.toNat
    · exact .inr (.inl ⟨x, h, rfl, hc, by simp [hc]⟩)
    · exact .inr (.inr ⟨x, h, rfl, by omega, by simp [hc]⟩)

/-- Everything `Extract` without a header can do (R128, R132, R133). -/
theorem extractKnown_cases (s : State) :
    (s.klv = false ∧ extractKnown s = raise .illegalOperation s) ∨
    (s.klv = true ∧ s.carLen.toNat < s.knownLen.toNat ∧ extractKnown s = raise .truncatedCarrier s) ∨
    (s.klv = true ∧ s.knownLen.toNat ≤ s.carLen.toNat ∧
      extractKnown s = extractSlice 0 s.knownLen.toNat s) := by
  unfold extractKnown knownLength
  rcases h : s.klv
  · simp
  · by_cases hc : s.carLen.toNat < s.knownLen.toNat
    · simp [hc]
    · simp [hc]; omega

/-- Number of bytes of an extraction (R131, R134). -/
theorem extractBytes_length (start count : Nat) (s : State) :
    (bitsToBytes (lsbOf (carSlice start count s))).length = count / 8 := by
  rw [bitsToBytes_length, lsbOf_length, carSlice_length]

end Sys2Proof.Machine
end

