-- ==== Sys2Proof/Laws/HostPort.lean ====
section
/-! SUPPORT. What the host's accesses do (spec/20_memory.md R59 to R61, spec/10_state.md R20 to R29, R34,
R45), one lemma per kind of access, and which fields a host write can touch. -/

namespace Sys2Proof.Machine

@[simp] theorem spaceSize_reg (z : Config.Sizes) : spaceSize .reg z = 10 := by unfold spaceSize; rfl
@[simp] theorem spaceSize_pay (z : Config.Sizes) : spaceSize .pay z = z.payMax := by unfold spaceSize; rfl
@[simp] theorem spaceSize_car (z : Config.Sizes) : spaceSize .car z = z.carMax := by unfold spaceSize; rfl
@[simp] theorem spaceSize_bit (z : Config.Sizes) : spaceSize .bit z = bitMax z := by unfold spaceSize; rfl
@[simp] theorem spaceSize_out (z : Config.Sizes) : spaceSize .out z = outMax z := by unfold spaceSize; rfl

/-- Every register has a number below 10, and the number names it (R20). -/
theorem ofNumber_number (r : Reg) : Reg.ofNumber r.number = some r := by cases r <;> rfl

theorem number_lt (r : Reg) : r.number < 10 := by cases r <;> decide

/-- A host write outside a space is ignored (R45, R60). -/
theorem hostWrite_outside (space : Space) (i : Nat) (w : Word) (s : State)
    (h : spaceSize space s.sizes ≤ i) : hostWrite space i w s = s := by
  simp [hostWrite, Nat.not_lt.mpr h]

theorem hostWrite_reg (r : Reg) (w : Word) (s : State) :
    hostWrite .reg r.number w s = writeReg r w s := by
  simp [hostWrite, ofNumber_number, number_lt]

theorem hostWrite_pay (i : Nat) (w : Word) (s : State) (h : i < s.sizes.payMax) :
    hostWrite .pay i w s = writePay i (w.setWidth 8) s := by simp [hostWrite, h]

theorem hostWrite_car (i : Nat) (w : Word) (s : State) (h : i < s.sizes.carMax) :
    hostWrite .car i w s = writeCar i (w.setWidth 8) s := by simp [hostWrite, h]

theorem hostWrite_bit (i : Nat) (w : Word) (s : State) (h : i < bitMax s.sizes) :
    hostWrite .bit i w s = writeBit i (w.getLsbD 0) s := by simp [hostWrite, h]

/-- A host write of a cell of `OUT` is ignored (R61). -/
theorem hostWrite_out (i : Nat) (w : Word) (s : State) : hostWrite .out i w s = s := by
  unfold hostWrite; split <;> rfl

/-- Everything a host write can be: nothing, a register write, or a write of an existing cell. -/
theorem hostWrite_cases (space : Space) (i : Nat) (w : Word) (s : State) :
    hostWrite space i w s = s ∨
    (space = .reg ∧ ∃ r : Reg, i = r.number ∧ hostWrite space i w s = writeReg r w s) ∨
    (space = .pay ∧ i < s.sizes.payMax ∧ hostWrite space i w s = writePay i (w.setWidth 8) s) ∨
    (space = .car ∧ i < s.sizes.carMax ∧ hostWrite space i w s = writeCar i (w.setWidth 8) s) ∨
    (space = .bit ∧ i < bitMax s.sizes ∧ hostWrite space i w s = writeBit i (w.getLsbD 0) s) := by
  by_cases h : i < spaceSize space s.sizes
  · cases space with
    | reg =>
      rw [spaceSize_reg] at h
      have : ∃ r : Reg, i = r.number := by
        match i, h with
        | 0, _ => exact ⟨.cmd, rfl⟩
        | 1, _ => exact ⟨.status, rfl⟩
        | 2, _ => exact ⟨.payLen, rfl⟩
        | 3, _ => exact ⟨.carLen, rfl⟩
        | 4, _ => exact ⟨.bitLen, rfl⟩
        | 5, _ => exact ⟨.outLen, rfl⟩
        | 6, _ => exact ⟨.knownLen, rfl⟩
        | 7, _ => exact ⟨.int, rfl⟩
        | 8, _ => exact ⟨.errReq, rfl⟩
        | 9, _ => exact ⟨.errAvail, rfl⟩
      obtain ⟨r, rfl⟩ := this
      exact .inr (.inl ⟨rfl, r, rfl, hostWrite_reg r w s⟩)
    | pay => exact .inr (.inr (.inl ⟨rfl, h, hostWrite_pay i w s h⟩))
    | car => exact .inr (.inr (.inr (.inl ⟨rfl, h, hostWrite_car i w s h⟩)))
    | bit => exact .inr (.inr (.inr (.inr ⟨rfl, h, hostWrite_bit i w s h⟩)))
    | out => exact .inl (hostWrite_out i w s)
  · exact .inl (hostWrite_outside space i w s (Nat.not_lt.mp h))

/-- Everything a register write can be (R20 to R29, R34, R61). -/
theorem writeReg_cases (r : Reg) (w : Word) (s : State) :
    writeReg r w s = s ∨
    (r = .payLen ∧ w.toNat ≤ s.sizes.payMax ∧ writeReg r w s = { s with payLen := w }) ∨
    (r = .carLen ∧ w.toNat ≤ s.sizes.carMax ∧ writeReg r w s = { s with carLen := w }) ∨
    (r = .bitLen ∧ w.toNat ≤ bitMax s.sizes ∧ writeReg r w s = { s with bitLen := w }) ∨
    (r = .knownLen ∧ writeReg r w s = { s with knownLen := w, klv := true }) ∨
    (r = .int ∧ writeReg r w s = { s with int := w.setWidth 16 }) := by
  cases r with
  | payLen => by_cases h : w.toNat ≤ s.sizes.payMax <;> simp [writeReg, h]
  | carLen => by_cases h : w.toNat ≤ s.sizes.carMax <;> simp [writeReg, h]
  | bitLen => by_cases h : w.toNat ≤ bitMax s.sizes <;> simp [writeReg, h]
  | _ => simp [writeReg]

/-- A host read outside a space gives 0 (R45, R60). -/
theorem hostRead_outside (space : Space) (i : Nat) (s : State) (h : spaceSize space s.sizes ≤ i) :
    hostRead space i s = 0 := by simp [hostRead, Nat.not_lt.mpr h]

theorem hostRead_reg (r : Reg) (s : State) : hostRead .reg r.number s = readReg r s := by
  simp [hostRead, ofNumber_number, number_lt]

theorem hostRead_pay (i : Nat) (s : State) (h : i < s.sizes.payMax) :
    hostRead .pay i s = (readPay i s).setWidth 32 := by simp [hostRead, h]

theorem hostRead_car (i : Nat) (s : State) (h : i < s.sizes.carMax) :
    hostRead .car i s = (readCar i s).setWidth 32 := by simp [hostRead, h]

theorem hostRead_bit (i : Nat) (s : State) (h : i < bitMax s.sizes) :
    hostRead .bit i s = (BitVec.ofBool (readBit i s)).setWidth 32 := by simp [hostRead, h]

theorem hostRead_out (i : Nat) (s : State) (h : i < outMax s.sizes) :
    hostRead .out i s = (readOut i s).setWidth 32 := by simp [hostRead, h]

end Sys2Proof.Machine
end

