-- ==== Sys2Proof/Laws/PerInstr.lean ====
section
/-! SUPPORT. Per command, as syntax: its table fields are well-formed and its word has those fields
(spec/30_encoding.md R77 to R80). -/

namespace Sys2Proof.Laws.TableRow

/-- The command's fields pass the checks of R77 to R79, and its word has exactly those fields. -/
def Statement (i : Instr) : Prop := i.wellFormed = true ∧ fieldsOf (encode i) = i.fields

theorem embedRaw : Statement .embedRaw := ⟨rfl, by decide⟩
theorem embedHdr : Statement .embedHdr := ⟨rfl, by decide⟩
theorem extractRaw : Statement .extractRaw := ⟨rfl, by decide⟩
theorem extractHdr : Statement .extractHdr := ⟨rfl, by decide⟩
theorem b2bits : Statement .b2bits := ⟨rfl, by decide⟩
theorem bits2b : Statement .bits2b := ⟨rfl, by decide⟩
theorem i2bits : Statement .i2bits := ⟨rfl, by decide⟩
theorem bits2i : Statement .bits2i := ⟨rfl, by decide⟩
theorem lsbof : Statement .lsbof := ⟨rfl, by decide⟩

end Sys2Proof.Laws.TableRow
end

