-- ==== Sys2Proof/Laws/Step.lean ====
section
/-! SUPPORT. One step, said once: what a step does for each kind of host action, and the shapes a
command's result can have. -/

namespace Sys2Proof.Machine

/-- Issuing a word runs its command or raises `IllegalOperation` (R76, R83). -/
theorem issue_cases (w : Word) (s : State) :
    (∃ i, decode w = .ok i ∧ issue w s = exec i s) ∨
    (∃ e, decode w = .error e ∧ issue w s = .next (raise .illegalOperation s)) := by
  unfold issue
  rcases h : decode w with e | i
  · exact .inr ⟨e, rfl, rfl⟩
  · exact .inl ⟨i, rfl, rfl⟩

/-- A write is the issue of a command exactly when it writes register 0 (R21). -/
theorem perform_command (w : Word) (s : State) : perform (.write .reg 0 w) s = issue w s := rfl

theorem perform_write (space : Space) (i : Nat) (w : Word) (s : State)
    (h : ¬ (space = .reg ∧ i = 0)) : perform (.write space i w) s = .next (hostWrite space i w s) := by
  have : commandWord (.write space i w) = none := by
    cases space <;> cases i <;> simp_all [commandWord]
  simp [perform, this]

theorem perform_read (space : Space) (i : Nat) (s : State) :
    perform (.read space i) s = .next { s with replies := s.replies ++ [hostRead space i s] } := rfl

theorem perform_reset (s : State) : perform .reset s = .next (resetEvent s) := rfl

/-- A step takes the first action off the script and performs it. -/
theorem step_cons (a : HostAction) (rest : List HostAction) (s : State) (h : s.script = a :: rest) :
    step s = perform a { s with script := rest } := by simp [step, h]

/-- Everything one command can do to the state: an error report, a completed store into `BIT` or `OUT`, a
completed write of `INT`, or a completed embed pass. -/
theorem exec_cases (i : Instr) (s : State) :
    (∃ e, exec i s = .next (raise e s)) ∨
    (∃ bits, exec i s = .next (complete (storeBit bits s)) ∧
      (i = .b2bits ∧ bits = bytesToBits (seqPay s) ∨ i = .i2bits ∧ bits = intToBits s.int ∨
        i = .lsbof ∧ bits = lsbOf (seqCar s))) ∨
    (∃ bytes, exec i s = .next (complete (storeOut bytes s)) ∧
      (i = .bits2b ∧ bytes = bitsToBytes (seqBit s) ∨
        (i = .extractRaw ∨ i = .extractHdr) ∧ ∃ start count, start + count ≤ s.carLen.toNat ∧
          bytes = bitsToBytes (lsbOf (carSlice start count s)))) ∨
    (∃ x, i = .bits2i ∧ exec i s = .next (complete { s with int := x })) ∨
    (∃ h, i = (if h then .embedHdr else .embedRaw) ∧
      frameLength h s.payLen.toNat ≤ s.carLen.toNat ∧
      exec i s = .next (complete (embedFrom 0 (frameOf h (seqPay s)) s))) := by
  cases i with
  | embedRaw =>
    rcases embed_cases false s with ⟨h, -⟩ | ⟨-, -, h⟩ | ⟨-, hc, h⟩
    · simp at h
    · exact .inl ⟨_, by rw [← h]; rfl⟩
    · exact .inr (.inr (.inr (.inr ⟨false, rfl, hc, by rw [← h]; rfl⟩)))
  | embedHdr =>
    rcases embed_cases true s with ⟨-, -, h⟩ | ⟨-, -, h⟩ | ⟨-, hc, h⟩
    · exact .inl ⟨_, by rw [← h]; rfl⟩
    · exact .inl ⟨_, by rw [← h]; rfl⟩
    · exact .inr (.inr (.inr (.inr ⟨true, rfl, hc, by rw [← h]; rfl⟩)))
  | extractRaw =>
    rcases extractKnown_cases s with ⟨-, h⟩ | ⟨-, -, h⟩ | ⟨-, hc, h⟩
    · exact .inl ⟨_, by rw [← h]; rfl⟩
    · exact .inl ⟨_, by rw [← h]; rfl⟩
    · exact .inr (.inr (.inl ⟨_, by rw [← extractSlice, ← h]; rfl,
        .inr ⟨.inl rfl, 0, _, by omega, rfl⟩⟩))
  | extractHdr =>
    rcases extractHeader_cases s with ⟨-, h⟩ | ⟨x, -, -, -, h⟩ | ⟨x, -, -, hc, h⟩
    · exact .inl ⟨_, by rw [← h]; rfl⟩
    · exact .inl ⟨_, by rw [← h]; rfl⟩
    · exact .inr (.inr (.inl ⟨_, by rw [← extractSlice, ← h]; rfl,
        .inr ⟨.inr rfl, 16, _, hc, rfl⟩⟩))
  | b2bits => exact .inr (.inl ⟨_, rfl, .inl ⟨rfl, rfl⟩⟩)
  | bits2b => exact .inr (.inr (.inl ⟨_, rfl, .inl ⟨rfl, rfl⟩⟩))
  | i2bits => exact .inr (.inl ⟨_, rfl, .inr (.inl ⟨rfl, rfl⟩)⟩)
  | bits2i =>
    rcases execBits2i_cases s with ⟨-, h⟩ | ⟨-, x, -, h⟩
    · exact .inl ⟨_, h⟩
    · exact .inr (.inr (.inr (.inl ⟨x, rfl, h⟩)))
  | lsbof => exact .inr (.inl ⟨_, rfl, .inr (.inr ⟨rfl, rfl⟩)⟩)

end Sys2Proof.Machine
end

