-- ==== Sys2Proof/Laws/Run.lean ====
section
/-! SUPPORT. A step takes one action off the script, whatever the action does, and a run goes step by step
(spec/20_memory.md R66, spec/70_reset_and_hazards.md R189). -/

namespace Sys2Proof.Machine

/-- No command changes the script. -/
theorem exec_script (i : Instr) (s t : State) (h : exec i s = .next t) : t.script = s.script := by
  rcases exec_cases i s with ⟨e, he⟩ | ⟨b, he, -⟩ | ⟨b, he, -⟩ | ⟨x, -, he⟩ | ⟨x, -, -, he⟩ <;>
    rw [he] at h <;> cases h <;> simp

/-- Nor does the write of any word to `CMD`. -/
theorem issue_script (w : Word) (s t : State) (h : issue w s = .next t) : t.script = s.script := by
  rcases issue_cases w s with ⟨i, -, hi⟩ | ⟨e, -, he⟩
  · exact exec_script i s t (hi ▸ h)
  · rw [he] at h; cases h; simp

/-- Nor does any other host write. -/
theorem hostWrite_script (space : Space) (i : Nat) (w : Word) (s : State) :
    (hostWrite space i w s).script = s.script := by
  rcases hostWrite_cases space i w s with h | ⟨-, r, -, h⟩ | ⟨-, -, h⟩ | ⟨-, -, h⟩ | ⟨-, -, h⟩ <;> rw [h]
  · rcases writeReg_cases r w s with h | ⟨-, -, h⟩ | ⟨-, -, h⟩ | ⟨-, -, h⟩ | ⟨-, h⟩ | ⟨-, h⟩ <;> rw [h]
  all_goals simp

/-- Performing an action leaves the script alone. -/
theorem perform_script (a : HostAction) (s t : State) (h : perform a s = .next t) :
    t.script = s.script := by
  unfold perform at h
  split at h
  · exact issue_script _ s t h
  · split at h <;> cases h
    · exact hostWrite_script _ _ _ s
    · rfl
    · rfl

/-- A step takes exactly the first action off the script. -/
theorem step_script (s t : State) (h : step s = .next t) : t.script = s.script.tail := by
  unfold step at h
  split at h
  · next hs => cases h; rw [hs]; rfl
  · next a rest hs => rw [perform_script a _ t h, hs]; rfl

/-- A run goes on from the state after its first step. -/
theorem runFor_succ (n : Nat) (s t : State) (h : step s = .next t) : runFor (n + 1) s = runFor n t := by
  simp [runFor, h]

/-- Going wrong, one action at a time. -/
theorem wentWrong_cons (expects : List (List ResultCode)) (a : HostAction) (rest : List HostAction)
    (s t : State) (hs : s.script = a :: rest) (h : step s = .next t) :
    wentWrong expects s = (endedUnexpectedly (expects.headD []) a t || wentWrong expects.tail t) := by
  simp [wentWrong, wentWrongIn, step_script s t h, hs, h]

/-- What it takes for an action to end unexpectedly. -/
theorem endedUnexpectedly_iff (expected : List ResultCode) (a : HostAction) (t : State) :
    endedUnexpectedly expected a t = true ↔
      (∃ w, a = .write .reg 0 w) ∧ t.code ≠ .ok ∧ t.code ∉ expected := by
  have : (commandWord a).isSome = true ↔ ∃ w, a = .write .reg 0 w := by
    rcases a with ⟨_ | _ | _ | _ | _, _ | i, w⟩ | _ | _ <;> simp [commandWord]
  simp [endedUnexpectedly, this, and_assoc]

end Sys2Proof.Machine
end

