-- ==== Sys2Proof/Tests/Slice0.lean ====
section
/-! SUPPORT. Tests of the model against words and values worked out from spec/ (the vectors of
spec/95_test_vectors.md and the tables of spec/30_encoding.md), and for every obligation with hypotheses
a concrete case that meets them. -/

namespace Sys2Proof.Tests

open Sys2Proof Sys2Proof.Machine

/-! ### Small states -/

/-- `CAR_MAX` = 64, `PAY_MAX` = 16, so `BIT_MAX` = 128 and `OUT_MAX` = 16; everything else as after reset. -/
def start : State := { State.reset with sizes := { carMax := 64, payMax := 16 } }

/-- `CAR_MAX` = 70000 and `PAY_MAX` = 9000: room for the header boundary (R9, R142). -/
def wide : State := { State.reset with sizes := { carMax := 70000, payMax := 9000 } }

/-- The cells from the given index upward hold the given values. -/
def listed {α : Type} : Nat → List α → Memory α
  | _, [] => []
  | i, v :: vs => (i, v) :: listed (i + 1) vs

/-- `load PAY, bytes` on a state. -/
def withPay (bytes : List Byte) (s : State) : State :=
  { s with pay := listed 0 bytes, payLen := BitVec.ofNat 32 bytes.length }

/-- `load CAR, bytes` on a state. -/
def withCar (bytes : List Byte) (s : State) : State :=
  { s with car := listed 0 bytes, carLen := BitVec.ofNat 32 bytes.length }

/-- `load BIT, bits` on a state. -/
def withBit (bits : List Nat) (s : State) : State :=
  { s with bit := listed 0 (bits.map (· == 1)), bitLen := BitVec.ofNat 32 bits.length }

/-- The lengths alone. -/
def withLens (n c : Nat) (s : State) : State :=
  { s with payLen := BitVec.ofNat 32 n, carLen := BitVec.ofNat 32 c }

/-- `setk k` on a state. -/
def withKnown (k : Word) (s : State) : State := { s with knownLen := k, klv := true }

/-- The host is about to do this. -/
def doing (script : List HostAction) (s : State) : State := { s with script := script }

/-- The state an outcome leaves; the one before if it stops. -/
def nextOf (s : State) : Host.Outcome State Fault Refusal → State
  | .next t => t
  | _ => s

/-- The state after a command. -/
def after (i : Instr) (s : State) : State := nextOf s (exec i s)

/-- The state after the host's next action. -/
def stepped (s : State) : State := nextOf s (step s)

/-- Bits as the vectors write them. -/
def nats (bits : List Bit) : List Nat := bits.map Bool.toNat

/-- Bytes as the vectors write them. -/
def vals (bytes : List Byte) : List Nat := bytes.map BitVec.toNat

/-- The result report as the host reads it: `STATUS`, `ERR_REQ`, `ERR_AVAIL`. -/
def reported (s : State) : Nat × Nat × Nat :=
  ((readReg .status s).toNat, s.errReq.toNat, s.errAvail.toNat)

/-! ### WellFormed: an ill-formed term for each check -/

theorem test_rsv_refused : Fields.rsvOk { rsv := 1, cls := false, sel := 1 } = false := by decide
theorem test_z_refused : Fields.zOk { rsv := 0, cls := false, sel := 0b100#3 } = false := by decide
theorem test_fn_refused : Fields.fnOk { rsv := 0, cls := true, sel := 0b101#3 } = false := by decide
theorem test_wf_refuses_rsv : Fields.wellFormed { rsv := 1, cls := false, sel := 1 } = false := by decide
theorem test_wf_refuses_z : Fields.wellFormed { rsv := 0, cls := false, sel := 4 } = false := by decide
theorem test_wf_refuses_fn : Fields.wellFormed { rsv := 0, cls := true, sel := 7 } = false := by decide
theorem test_wf_accepts_lsbof : Fields.wellFormed { rsv := 0, cls := true, sel := 4 } = true := by decide

/-! ### Decoding: words written out bit by bit from R77 to R79 (RSV, CLS, then Z DIR HDR or FN) -/

theorem test_decode_embed_raw :
    decode (0b0000000000000000000000000000#28 ++ 0b0#1 ++ 0b0#1 ++ 0b0#1 ++ 0b0#1) = .ok .embedRaw := by
  decide
theorem test_decode_embed_hdr :
    decode (0b0000000000000000000000000000#28 ++ 0b0#1 ++ 0b0#1 ++ 0b0#1 ++ 0b1#1) = .ok .embedHdr := by
  decide
theorem test_decode_extract_raw :
    decode (0b0000000000000000000000000000#28 ++ 0b0#1 ++ 0b0#1 ++ 0b1#1 ++ 0b0#1) = .ok .extractRaw := by
  decide
theorem test_decode_extract_hdr :
    decode (0b0000000000000000000000000000#28 ++ 0b0#1 ++ 0b0#1 ++ 0b1#1 ++ 0b1#1) = .ok .extractHdr := by
  decide
theorem test_decode_b2bits :
    decode (0b0000000000000000000000000000#28 ++ 0b1#1 ++ 0b000#3) = .ok .b2bits := by decide
theorem test_decode_bits2b :
    decode (0b0000000000000000000000000000#28 ++ 0b1#1 ++ 0b001#3) = .ok .bits2b := by decide
theorem test_decode_i2bits :
    decode (0b0000000000000000000000000000#28 ++ 0b1#1 ++ 0b010#3) = .ok .i2bits := by decide
theorem test_decode_bits2i :
    decode (0b0000000000000000000000000000#28 ++ 0b1#1 ++ 0b011#3) = .ok .bits2i := by decide
theorem test_decode_lsbof :
    decode (0b0000000000000000000000000000#28 ++ 0b1#1 ++ 0b100#3) = .ok .lsbof := by decide

/-- V11: words 4 to 7. -/
theorem test_decode_refuses_z :
    [4, 5, 6, 7].map (fun w => decode (BitVec.ofNat 32 w)) = List.replicate 4 (.error .formatFZ) := by
  decide
/-- V11: words 13 to 15. -/
theorem test_decode_refuses_fn :
    [13, 14, 15].map (fun w => decode (BitVec.ofNat 32 w)) = List.replicate 3 (.error .reservedFn) := by
  decide
/-- V11: reserved bits, among them bit 4 set over `EMBED.HDR` and bit 31 alone. -/
theorem test_decode_refuses_rsv :
    [0x10, 0x11, 0x100, 0x80000000, 0xFFFFFFFF].map (fun w => decode (BitVec.ofNat 32 w)) =
      List.replicate 5 (.error .reservedBits) := by
  decide

theorem test_table_word : decodeTableWord 32 0xA = some .i2bits := by decide
theorem test_table_word_illegal : decodeTableWord 32 0x7 = none := by decide
/-- A word placed by `withFetchWord` runs in the very next step, here an illegal one (V11). -/
theorem test_fetch_illegal : reported (stepped (start.withFetchWord 32 0xD)) = (4, 0, 0) := by decide
/-- The first command after reset: `EMBED.HDR` needs 16 carrier bytes and has none (R176). -/
theorem test_fetch_first : reported (stepped (State.reset.withFetchWord 32 1)) = (1, 16, 0) := by decide

/-! ### The codec commands (V1 to V5) -/

theorem test_b2bits :
    nats (seqBit (after .b2bits (withPay [0x80, 0x01] start))) =
      [1, 0, 0, 0, 0, 0, 0, 0, 0, 0, 0, 0, 0, 0, 0, 1] := by
  decide
/-- The command clears an earlier report (R161) and sets `BIT_LEN`. -/
theorem test_b2bits_report :
    reported (after .b2bits (withPay [5, 9] { start with code := .capacityError, errReq := 9 })) = (0, 0, 0) ∧
      (after .b2bits (withPay [5, 9] start)).bitLen = 16 := by
  decide

theorem test_bits2b_drops_tail :
    vals (seqOut (after .bits2b (withBit [1, 0, 1, 0, 0, 1, 0, 1, 1, 1, 1, 1, 1] start))) = [165] := by
  decide
theorem test_bits2b_short :
    (after .bits2b (withBit [1, 1, 1, 1, 1, 1, 1] { start with outLen := 3 })).outLen = 0 := by decide

theorem test_i2bits :
    nats (seqBit (after .i2bits { start with int := 0xA5C3 })) =
      [1, 0, 1, 0, 0, 1, 0, 1, 1, 1, 0, 0, 0, 0, 1, 1] := by
  decide
theorem test_i2bits_len : (after .i2bits { start with int := 1, bitLen := 40 }).bitLen = 16 := by decide

theorem test_bits2i_ignores_rest :
    (after .bits2i (withBit [0, 0, 0, 0, 0, 0, 0, 0, 0, 0, 0, 1, 0, 0, 0, 0, 1, 1, 1] start)).int = 16 := by
  decide
theorem test_bits2i_refuses_fifteen :
    reported (after .bits2i (withBit (List.replicate 15 1) { start with int := 7 })) = (4, 0, 0) ∧
      (after .bits2i (withBit (List.replicate 15 1) { start with int := 7 })).int = 7 := by
  decide

theorem test_lsbof :
    nats (seqBit (after .lsbof (withCar [0, 1, 2, 3, 254, 255, 128, 127] start))) =
      [0, 1, 0, 1, 0, 1, 0, 1] := by
  decide
theorem test_lsbof_keeps_carrier :
    vals (seqCar (after .lsbof (withCar [4, 4, 5, 4, 5] start))) = [4, 4, 5, 4, 5] := by decide

/-- V6. -/
theorem test_set_parity :
    [(0, 0), (0, 1), (1, 0), (1, 1), (128, 1), (254, 1), (255, 0), (127, 0)].map
      (fun (b, x) => (setParity (BitVec.ofNat 8 b) (x == 1)).toNat) =
      [0, 1, 0, 1, 129, 255, 254, 126] := by
  decide

/-! ### The framer commands (V7 to V10) -/

theorem test_embed_raw :
    vals (seqCar (after .embedRaw (withPay [0xA5] (withCar [10, 11, 12, 13, 14, 15, 16, 17, 200] start)))) =
      [11, 10, 13, 12, 14, 15, 16, 17, 200] := by
  decide
theorem test_embed_raw_capacity :
    reported (after .embedRaw (withPay [1, 2] (withCar (List.replicate 15 0) start))) = (1, 16, 15) ∧
      vals (seqCar (after .embedRaw (withPay [1, 2] (withCar (List.replicate 15 0) start)))) =
        List.replicate 15 0 := by
  decide

theorem test_embed_hdr :
    vals (seqCar (after .embedHdr (withPay [1, 2] (withCar (List.replicate 32 7) start)))) =
      [6, 6, 6, 6, 6, 6, 6, 6, 6, 6, 6, 7, 6, 6, 6, 6, 6, 6, 6, 6, 6, 6, 6, 7, 6, 6, 6, 6, 6, 6, 7, 6] := by
  decide
/-- `HeaderOverflow` wins over `CapacityError` (R159): 8192 payload bytes, ten carrier bytes. -/
theorem test_embed_hdr_overflow :
    reported (after .embedHdr (withLens 8192 10 wide)) = (2, 0, 0) := by decide

/-- V9, carrier A: K = 9 drops the ninth parity. -/
theorem test_extract_raw :
    vals (seqOut (after .extractRaw
      (withKnown 9 (withCar [11, 10, 13, 12, 14, 15, 16, 17, 200] start)))) = [165] := by
  decide
/-- V9, carrier A: K = 10 is `TruncatedCarrier`, and no known length is `IllegalOperation`. -/
theorem test_extract_raw_refusals :
    reported (after .extractRaw (withKnown 10 (withLens 0 9 start))) = (0x103, 0, 0) ∧
      reported (after .extractRaw (withLens 0 9 start)) = (4, 0, 0) := by
  decide

/-- V10, carrier B cut to its first 32 bytes. -/
theorem test_extract_hdr :
    vals (seqOut (after .extractHdr (withCar
      [100, 100, 100, 100, 100, 100, 100, 100, 100, 100, 100, 101, 100, 100, 100, 100,
       100, 101, 100, 100, 101, 100, 100, 100, 100, 101, 101, 100, 101, 100, 100, 101] start))) =
      [72, 105] := by
  decide
/-- V10: sixteen 3s state 65535 bits, and fifteen bytes hold no header. -/
theorem test_extract_hdr_truncated :
    reported (after .extractHdr (withCar (List.replicate 16 3) start)) = (3, 0, 0) ∧
      reported (after .extractHdr (withLens 0 15 start)) = (3, 0, 0) := by
  decide

/-! ### The host's accesses (V12) -/

theorem test_write_status_ignored :
    reported (stepped (doing [.wr .status 0xFFFFFFFF] start)) = (0, 0, 0) := by decide
theorem test_write_known_sets_klv :
    reported (stepped (doing [.wr .knownLen 0] start)) = (0x100, 0, 0) := by decide
theorem test_write_long_length_ignored :
    (stepped (doing [.wr .payLen 17] { start with payLen := 3 })).payLen = 3 := by decide
theorem test_write_int_drops_high_half :
    (stepped (doing [.wr .int 0x0001A5C3] start)).int = 0xA5C3 := by decide
theorem test_write_byte_cell : readPay 0 (stepped (doing [.write .pay 0 0x1FF] start)) = 0xFF := by decide
theorem test_write_bit_cell : readBit 0 (stepped (doing [.write .bit 0 2] start)) = false := by decide
theorem test_write_out_ignored : (stepped (doing [.write .out 0 1] start)).out = [] := by decide
theorem test_read_absent_register : (stepped (doing [.read .reg 10] start)).replies = [0] := by decide
theorem test_read_status :
    (stepped (doing [.rd .status] (withKnown 3 { start with code := .truncatedCarrier }))).replies =
      [0x103] := by
  decide
/-- P5: the expansion of `load PAY, [0x80, 0x01]` (R86). -/
theorem test_load_expands :
    loadPay [0x80, 0x01] = [.write .pay 0 0x80, .write .pay 1 0x01, .write .reg 2 2] := by decide

/-! ### Going wrong (R189) -/

/-- `LSBOF` ends with `OK`, which is not wrong even where the script expected an error. -/
theorem test_ok_is_never_wrong :
    wentWrong [[.truncatedCarrier]] (doing [.cmd .lsbof] start) = false := by decide
/-- `EXTRACT.HDR` on the empty carrier ends with `TruncatedCarrier`: wrong although the last command of the
run ends with `OK`, unless the script expected that code of that command. -/
theorem test_early_error_is_wrong :
    wentWrong [] (doing [.cmd .extractHdr, .cmd .lsbof] start) = true ∧
      wentWrong [[], [.truncatedCarrier]] (doing [.cmd .extractHdr, .cmd .lsbof] start) = true ∧
      wentWrong [[.truncatedCarrier]] (doing [.cmd .extractHdr, .cmd .lsbof] start) = false := by
  decide
/-- A host access is no command: it does not go wrong again over the code an earlier command left. -/
theorem test_access_is_no_command :
    wentWrong [] (doing [.rd .status] { start with code := .capacityError }) = false := by decide

/-! ### Witnesses: the hypotheses of the obligations are met, clause by clause, at the boundaries -/

theorem witness_DecodeAndEncodeAgree : decode 0xC#32 = .ok .lsbof ∧ encode .lsbof = 0xC#32 := by decide

/-- The first and the last illegal word of every range. -/
theorem witness_IllegalWordChangesOnlyTheReport :
    (∀ w ∈ [16#32, 0xFFFFFFFF#32, 4#32, 7#32, 13#32, 15#32],
      16 ≤ w.toNat ∨ (4 ≤ w.toNat ∧ w.toNat ≤ 7) ∨ (13 ≤ w.toNat ∧ w.toNat ≤ 15)) ∧
    ∀ w ∈ [3#32, 8#32, 12#32],
      ¬ (16 ≤ w.toNat ∨ (4 ≤ w.toNat ∧ w.toNat ≤ 7) ∨ (13 ≤ w.toNat ∧ w.toNat ≤ 15)) := by
  simp

theorem witness_DecodingIsTotal :
    [0#32, 1#32, 2#32, 3#32, 8#32, 9#32, 10#32, 11#32, 12#32].map BitVec.toNat =
      [0, 1, 2, 3, 8, 9, 10, 11, 12] := by
  decide

theorem witness_StepRunsDecodedCommand :
    (doing [.write .reg 0 3#32, .reset] start).script = .write .reg 0 3#32 :: [.reset] ∧
      decode 3#32 = .ok .extractHdr ∧ decodeTableWord 32 3 = some .extractHdr ∧ 3 < 2 ^ 32 ∧
      (doing [.write .reg 0 4#32] start).script = .write .reg 0 4#32 :: [] ∧
      decode 4#32 = .error .formatFZ := by
  decide

/-- A register write, a cell write with index 0, a read and a reset. -/
theorem witness_StepPerformsHostAccess :
    (doing [.write .reg 1 7] start).script = .write .reg 1 7 :: [] ∧ ¬ (Space.reg = .reg ∧ 1 = 0) ∧
      (doing [.write .pay 0 7] start).script = .write .pay 0 7 :: [] ∧ ¬ (Space.pay = .reg ∧ 0 = 0) ∧
      (doing [.read .out 0] start).script = .read .out 0 :: [] ∧
      (doing [.reset] start).script = .reset :: [] := by
  decide

/-- The first absent register, and each of the four read-only ones. -/
theorem witness_AbsentAndReadOnlyState :
    10 ≤ 10 ∧ ∀ r ∈ [Reg.status, .outLen, .errReq, .errAvail],
      r = .status ∨ r = .outLen ∨ r = .errReq ∨ r = .errAvail := by
  decide

theorem witness_IdleBlockDoesNothing : start.script = [] := by decide

/-- Every register but `CMD`, and a length at its bound and one above it. -/
theorem witness_HostWritesRegister :
    (∀ r ∈ [Reg.status, .payLen, .carLen, .bitLen, .outLen, .knownLen, .int, .errReq, .errAvail],
      r ≠ .cmd ∧ (doing [.write .reg r.number 5] start).script = [.write .reg r.number 5]) ∧
    (16#32).toNat ≤ start.sizes.payMax ∧ ¬ (17#32).toNat ≤ start.sizes.payMax ∧
    (64#32).toNat ≤ start.sizes.carMax ∧ ¬ (65#32).toNat ≤ start.sizes.carMax ∧
    (128#32).toNat ≤ bitMax start.sizes ∧ ¬ (129#32).toNat ≤ bitMax start.sizes := by
  decide

/-- The first index outside each space, and any cell of `OUT`. -/
theorem witness_HostWriteOutsideIsIgnored :
    (∀ a ∈ [(Space.reg, 10), (.pay, 16), (.car, 64), (.bit, 128), (.out, 0)],
      a.1 = .reg ∧ 10 ≤ a.2 ∨ a.1 = .pay ∧ start.sizes.payMax ≤ a.2 ∨
        a.1 = .car ∧ start.sizes.carMax ≤ a.2 ∨ a.1 = .bit ∧ bitMax start.sizes ≤ a.2 ∨ a.1 = .out) ∧
    (doing [.write .reg 10 5] start).script = .write .reg 10 5 :: [] := by
  decide

/-- The last cell of each writable space. -/
theorem witness_HostWritesCell :
    (∀ a ∈ [(Space.pay, 15), (.car, 63), (.bit, 127)],
      a.1 = .pay ∧ a.2 < start.sizes.payMax ∨ a.1 = .car ∧ a.2 < start.sizes.carMax ∨
        a.1 = .bit ∧ a.2 < bitMax start.sizes) ∧
    (doing [.write .bit 127 3] start).script = .write .bit 127 3 :: [] := by
  decide

/-- An absent register, every register, and the last cell and the first index beyond of every space. -/
theorem witness_HostReads :
    (doing [.read .out 15] start).script = .read .out 15 :: [] ∧ 10 ≤ 10 ∧
      [Reg.cmd, .status, .payLen, .carLen, .bitLen, .outLen, .knownLen, .int, .errReq, .errAvail].map
        Reg.number = [0, 1, 2, 3, 4, 5, 6, 7, 8, 9] ∧
      15 < start.sizes.payMax ∧ ¬ 16 < start.sizes.payMax ∧
      63 < start.sizes.carMax ∧ ¬ 64 < start.sizes.carMax ∧
      127 < bitMax start.sizes ∧ ¬ 128 < bitMax start.sizes ∧
      15 < outMax start.sizes ∧ ¬ 16 < outMax start.sizes := by
  decide

theorem witness_ReadReturnsLastWrite :
    (doing [.write .car 63 0x1FF, .read .car 63] start).script =
      .write .car 63 0x1FF :: .read .car 63 :: [] ∧ 63 < start.sizes.carMax ∧
      15 < start.sizes.payMax ∧ 127 < bitMax start.sizes := by
  decide

theorem witness_RepeatedHostWriteChangesNothing :
    (doing [.write .reg 6 9, .write .reg 6 9] start).script =
      .write .reg 6 9 :: .write .reg 6 9 :: [] ∧ ¬ (Space.reg = .reg ∧ 6 = 0) ∧
      ¬ (Space.pay = .reg ∧ 0 = 0) := by
  decide

theorem witness_ResetLeavesRegistersZero :
    ∃ z s : State, z = resetEvent s ∧ s.klv = true ∧ s.pay ≠ [] :=
  ⟨_, withKnown 3 (withPay [1, 2] start), rfl, by decide, by decide⟩

theorem witness_CommandsStraightAfterReset : ∃ z s : State, z = resetEvent s ∧ s.payLen = 3 :=
  ⟨resetEvent (withLens 3 4 start), withLens 3 4 start, rfl, rfl⟩

/-- Lengths 15 and 16 for `bitsToInt` (and `IntegerRoundTrip`). -/
theorem witness_BitsToIntReadsFirstSixteen :
    (List.replicate 15 true).length < 16 ∧ 16 ≤ (List.replicate 16 true).length := by decide

theorem witness_StatusWordFields : (3 ≤ 3 ∧ 3 ≠ 8) ∧ 3 ≤ 31 ∧ 31 ≠ 8 := by decide
theorem witness_IntToBits_index : 0 < 16 ∧ 15 < 16 := by decide
theorem witness_BytesToBits_index : 15 < 8 * ([5, 9] : List Byte).length := by decide
theorem witness_BitsToBytes_index : 1 < (List.replicate 17 true).length / 8 := by decide
theorem witness_LsbOf_index : ([4, 5] : List Byte)[1]? = some 5 := by decide

theorem witness_FrameIsHeaderThenPayload :
    8 * ([5, 9] : List Byte).length ≤ 65535 ∧ 8 * (List.replicate 8191 (0 : Byte)).length ≤ 65535 := by
  refine ⟨by decide, ?_⟩
  rw [List.length_replicate]
  decide

theorem witness_inv : (withPay [1, 2] (withCar (List.replicate 16 0) start)).Inv := by decide

/-- `B2BITS`, and `BITS2B` after it: the largest payload that fits, the empty one
(`B2bitsStoresPayloadBits`, `Bits2bAfterB2bitsReturnsPayload`). -/
theorem witness_B2bits : (withLens 16 0 start).Inv ∧ (withLens 0 0 start).Inv := by decide

theorem witness_Bits2iReadsOrRefuses :
    16 ≤ (withBit (List.replicate 16 1) start).bitLen.toNat ∧
      (withBit (List.replicate 15 1) start).bitLen.toNat < 16 := by
  decide

theorem witness_CodecCommandsComposeIntoFramer :
    16 ≤ (withLens 0 16 start).carLen.toNat ∧
      (withKnown 9 (withLens 0 9 start)).klv = true ∧
      (withKnown 9 (withLens 0 9 start)).knownLen = (withKnown 9 (withLens 0 9 start)).carLen := by
  decide

/-- `EMBED.RAW`: c = 8n is accepted, c = 8n - 1 refused. -/
theorem witness_EmbedRaw :
    ((withLens 2 16 start).Inv ∧ 8 * (withLens 2 16 start).payLen.toNat ≤ (withLens 2 16 start).carLen.toNat) ∧
      (withLens 2 15 start).Inv ∧
      (withLens 2 15 start).carLen.toNat < 8 * (withLens 2 15 start).payLen.toNat := by
  decide

/-- `EMBED.HDR`: n = 8191 with c = 65544 is accepted, with c = 65543 refused, n = 8192 overflows. -/
theorem witness_EmbedHdr :
    ((withLens 8191 65544 wide).Inv ∧ (withLens 8191 65544 wide).payLen.toNat ≤ 8191 ∧
        16 + 8 * (withLens 8191 65544 wide).payLen.toNat ≤ (withLens 8191 65544 wide).carLen.toNat) ∧
      ((withLens 8191 65543 wide).Inv ∧ (withLens 8191 65543 wide).payLen.toNat ≤ 8191 ∧
        (withLens 8191 65543 wide).carLen.toNat < 16 + 8 * (withLens 8191 65543 wide).payLen.toNat) ∧
      (withLens 8192 70000 wide).Inv ∧ 8192 ≤ (withLens 8192 70000 wide).payLen.toNat := by
  decide

/-- `EXTRACT.RAW`: K = c is accepted, K = c + 1 truncated, an absent length refused. -/
theorem witness_ExtractRaw :
    ((withKnown 9 (withLens 0 9 start)).klv = true ∧
        (withKnown 9 (withLens 0 9 start)).knownLen.toNat ≤ (withKnown 9 (withLens 0 9 start)).carLen.toNat) ∧
      (withLens 0 9 start).klv = false ∧
      (withKnown 10 (withLens 0 9 start)).klv = true ∧
      (withKnown 10 (withLens 0 9 start)).carLen.toNat <
        (withKnown 10 (withLens 0 9 start)).knownLen.toNat := by
  decide

/-- Sixteen carrier bytes whose parities spell 1. -/
def spellsOne : State := withCar (List.replicate 15 2 ++ [3]) start

/-- `EXTRACT.HDR`: c = 15, c = 16 with header 1 (one byte short), c = 17 with header 1 (an exact fit). -/
theorem witness_ExtractHdr :
    (withLens 0 15 start).carLen.toNat < 16 ∧
      (16 ≤ spellsOne.carLen.toNat ∧
        1 = ∑ j ∈ Finset.range 16, (readCar j spellsOne).toNat % 2 * 2 ^ (15 - j) ∧
        spellsOne.carLen.toNat < 16 + 1) ∧
      16 ≤ (withCar (List.replicate 15 2 ++ [3, 4]) start).carLen.toNat ∧
      1 = ∑ j ∈ Finset.range 16,
        (readCar j (withCar (List.replicate 15 2 ++ [3, 4]) start)).toNat % 2 * 2 ^ (15 - j) ∧
      16 + 1 ≤ (withCar (List.replicate 15 2 ++ [3, 4]) start).carLen.toNat := by
  decide

/-- R139 (a): the known length is 8n. -/
theorem witness_EmbedThenExtract_raw :
    (withLens 2 16 start).Inv ∧ 8 * (withLens 2 16 start).payLen.toNat ≤ (withLens 2 16 start).carLen.toNat ∧
      (16#32).toNat = 8 * (withLens 2 16 start).payLen.toNat := by
  decide

/-- R139 (b). -/
theorem witness_EmbedThenExtract_hdr :
    (withLens 2 32 start).Inv ∧ (withLens 2 32 start).payLen.toNat ≤ 8191 ∧
      16 + 8 * (withLens 2 32 start).payLen.toNat ≤ (withLens 2 32 start).carLen.toNat := by
  decide

/-- R139, last sentence: a known length shorter than the payload and one that reaches into the untouched
carrier. -/
theorem witness_EmbedThenExtract_other :
    (withLens 1 20 start).Inv ∧ 8 * (withLens 1 20 start).payLen.toNat ≤ (withLens 1 20 start).carLen.toNat ∧
      (7#32).toNat ≤ (withLens 1 20 start).carLen.toNat ∧ (20#32).toNat ≤ (withLens 1 20 start).carLen.toNat := by
  decide

theorem witness_EmbedIsIdempotent :
    Instr.embedHdr = .embedRaw ∨ Instr.embedHdr = .embedHdr := by decide

theorem witness_EmbedBoundaries_raw :
    ((withLens 2 16 start).Inv ∧ (withLens 2 16 start).carLen.toNat = 8 * (withLens 2 16 start).payLen.toNat) ∧
      (withLens 2 15 start).Inv ∧
        (withLens 2 15 start).carLen.toNat + 1 = 8 * (withLens 2 15 start).payLen.toNat := by
  decide

theorem witness_EmbedBoundaries_hdr :
    ((withLens 2 32 start).Inv ∧ (withLens 2 32 start).payLen.toNat ≤ 8191 ∧
        (withLens 2 32 start).carLen.toNat = 16 + 8 * (withLens 2 32 start).payLen.toNat) ∧
      (withLens 2 31 start).Inv ∧ (withLens 2 31 start).payLen.toNat ≤ 8191 ∧
        (withLens 2 31 start).carLen.toNat = 15 + 8 * (withLens 2 31 start).payLen.toNat := by
  decide

theorem witness_EmbedBoundaries_limit :
    ((withLens 8191 65544 wide).Inv ∧ (withLens 8191 65544 wide).payLen.toNat = 8191 ∧
        65544 ≤ (withLens 8191 65544 wide).carLen.toNat) ∧
      (withLens 8192 10 wide).Inv ∧ (withLens 8192 10 wide).payLen.toNat = 8192 := by
  decide

theorem witness_RawExtractionOfHeaderFrame :
    (withLens 2 32 start).Inv ∧ (withLens 2 32 start).payLen.toNat ≤ 8191 ∧
      16 + 8 * (withLens 2 32 start).payLen.toNat ≤ (withLens 2 32 start).carLen.toNat ∧
      (32#32).toNat = 16 + 8 * (withLens 2 32 start).payLen.toNat := by
  decide

theorem witness_StepKeepsInvariant :
    ∃ s t : State, s.Inv ∧ s.script ≠ [] ∧ step s = .next t :=
  ⟨doing [.cmd .embedRaw] (withLens 2 16 start), _, by decide, by decide, rfl⟩

theorem witness_ErrorsArePreciseAndTotal :
    exec .bits2i start = .next (after .bits2i start) ∧
      (after .bits2i start).code ≠ .ok :=
  ⟨rfl, by decide⟩

/-- A command and a state for every entry of the table of R156 with a code other than `OK`. -/
theorem witness_ResultCodeTable :
    (after .embedRaw (withLens 2 15 start)).code = .capacityError ∧
      (after .embedHdr (withLens 2 31 start)).code = .capacityError ∧
      (after .embedHdr (withLens 8192 10 wide)).code = .headerOverflow ∧
      (after .extractRaw (withKnown 10 (withLens 0 9 start))).code = .truncatedCarrier ∧
      (after .extractRaw start).code = .illegalOperation ∧
      (after .extractHdr start).code = .truncatedCarrier ∧
      (after .bits2i start).code = .illegalOperation ∧ decode 7#32 = .error .formatFZ := by
  decide

theorem witness_OnlyCapacityErrorRecordsValues :
    (∃ s t : State, s.Inv ∧ exec .embedHdr s = .next t ∧ t.code = .capacityError) ∧
      ∃ s t : State, s.Inv ∧ exec .embedHdr s = .next t ∧ t.code ≠ .capacityError :=
  ⟨⟨withLens 2 31 start, _, by decide, rfl, by decide⟩,
    ⟨withLens 8192 10 wide, _, by decide, rfl, by decide⟩⟩

theorem witness_CommandsLeaveInputsAlone : ∃ s t : State, exec .lsbof s = .next t ∧ s.carLen = 5 :=
  ⟨withCar [4, 4, 5, 4, 5] start, _, rfl, by decide⟩

theorem witness_ExtractAndLsbofLeaveCarrier :
    ∀ i ∈ [Instr.extractRaw, .extractHdr, .lsbof], i = .extractRaw ∨ i = .extractHdr ∨ i = .lsbof := by
  decide

theorem witness_OnlyEmbedsChangeCarrierParities :
    (∃ s t : State, exec .embedRaw s = .next t ∧ readCar 0 s = 10 ∧ readCar 0 t = 11) ∧
      ∃ s t : State, exec .lsbof s = .next t ∧ Instr.lsbof ≠ .embedRaw ∧ Instr.lsbof ≠ .embedHdr :=
  ⟨⟨withPay [0xA5] (withCar [10, 11, 12, 13, 14, 15, 16, 17, 200] start), _, rfl, by decide, by decide⟩,
    ⟨start, _, rfl, by decide, by decide⟩⟩

theorem witness_FramerLeavesCodecStateAlone :
    ∀ i ∈ [Instr.embedRaw, .embedHdr, .extractRaw, .extractHdr],
      i = .embedRaw ∨ i = .embedHdr ∨ i = .extractRaw ∨ i = .extractHdr := by
  decide

/-- Two states with the same operands that differ in the last report, in `OUT` and beyond a length. -/
theorem witness_CommandsDependOnOperandsOnly :
    ∃ s₁ s₂ t₁ t₂ : State, SameOperands s₁ s₂ ∧ exec .bits2b s₁ = .next t₁ ∧ exec .bits2b s₂ = .next t₂ ∧
      t₁.code = .ok ∧ s₁.code ≠ s₂.code ∧ s₁.out ≠ s₂.out ∧ s₁.bit ≠ s₂.bit :=
  ⟨withBit [1, 0, 1, 0, 0, 1, 0, 1] start,
    { withBit [1, 0, 1, 0, 0, 1, 0, 1] start with
      code := .headerOverflow, out := [(0, 9)], bit := listed 0 [true, false, true, false, false, true, false, true, true] },
    _, _, by decide, rfl, rfl, by decide, by decide, by decide, by decide⟩

theorem witness_OnlyHostAndResetChangeKlv :
    ∃ s t : State, step s = .next t ∧ s.script = [.write .reg 6 0] ∧ s.klv = false :=
  ⟨doing [.write .reg 6 0] start, _, rfl, by decide, by decide⟩

/-- A run that has gone wrong at its second action. -/
theorem witness_RunEndsAndGoesWrongByCommand :
    WentWrong [] (doing [.rd .status, .write .reg 0 3] start) ∧
      ∃ (k : Nat) (w : Word) (t : State),
        (doing [.rd .status, .write .reg 0 3] start).script[k]? = some (.write .reg 0 w) ∧
        runFor (k + 1) (doing [.rd .status, .write .reg 0 3] start) = .next t ∧ t.code ≠ .ok ∧
        t.code ∉ ([] : List (List ResultCode)).getD k [] :=
  ⟨by decide, 1, 3, _, rfl, rfl, by decide, by decide⟩

theorem witness_SizesNeverChange : ∃ s t : State, step s = .next t ∧ s.script = [.reset] :=
  ⟨doing [.reset] start, _, rfl, by decide⟩

end Sys2Proof.Tests
end

/-! Family 00_scope: the block is idle without the host (R10), its sizes are legal and constant (R9), and a
command is a function of its operands (R11). -/

namespace Sys2Proof.Machine

/-! ### Idle steps and sizes -/

/-- The other half of `step_cons`: with no action pending a step is idle (R10). -/
theorem step_nil (s : State) (h : s.script = []) : step s = .next s := by simp [step, h]

/-- Settles O7, by the equation of an idle step. -/
theorem idleBlockDoesNothing : Obligations.IdleBlockDoesNothing := step_nil

/-- Settles O9: the equations are the definitions; the bounds are those of `max` and of floor division. -/
theorem derivedSpaceSizes : Obligations.DerivedSpaceSizes := fun z =>
  ⟨rfl, rfl, le_max_right _ _, Nat.mul_div_le (bitMax z) 8⟩

/-- The sizes after reset are legal, whatever the two opaque choices are (R9). -/
theorem sizes_reset_legal : State.reset.sizes.Legal := by
  have hcar : Config.carMax = Config.carMaxChoice % 4294967295 + 1 := rfl
  have hpay : Config.payMax = Config.payMaxChoice % 536870909 + 1 := rfl
  simp only [Config.Sizes.Legal, State.reset]
  omega

/-- Settles O48: the sizes are legal, every length is 0 and every space lists no cell. -/
theorem resetMeetsInvariant : Obligations.ResetMeetsInvariant := by
  have hlen : State.reset.LengthsLegal :=
    ⟨Nat.zero_le _, Nat.zero_le _, Nat.zero_le _, Nat.zero_le _⟩
  have hcells : State.reset.CellsLegal := ⟨⟨rfl, rfl⟩, ⟨rfl, rfl⟩, ⟨rfl, rfl⟩, ⟨rfl, rfl⟩⟩
  exact ⟨sizes_reset_legal, hlen, hcells⟩

/-- No command changes the sizes or anything else of the host's side. -/
theorem exec_keepsHostSide (i : Instr) (s t : State) (h : exec i s = .next t) : KeepsHostSide s t := by
  rcases exec_cases i s with ⟨e, he⟩ | ⟨b, he, -⟩ | ⟨b, he, -⟩ | ⟨x, -, he⟩ | ⟨x, -, -, he⟩ <;>
    rw [he] at h <;> cases h <;> simp [KeepsHostSide]

/-- Nor does the write of any word to `CMD`, legal or not. -/
theorem issue_keepsHostSide (w : Word) (s t : State) (h : issue w s = .next t) : KeepsHostSide s t := by
  rcases issue_cases w s with ⟨i, -, hi⟩ | ⟨e, -, he⟩
  · exact exec_keepsHostSide i s t (hi ▸ h)
  · rw [he] at h; cases h; simp [KeepsHostSide]

@[simp] theorem writeReg_sizes (r : Reg) (w : Word) (s : State) : (writeReg r w s).sizes = s.sizes := by
  rcases writeReg_cases r w s with h | ⟨-, -, h⟩ | ⟨-, -, h⟩ | ⟨-, -, h⟩ | ⟨-, h⟩ | ⟨-, h⟩ <;> rw [h]

@[simp] theorem hostWrite_sizes (space : Space) (i : Nat) (w : Word) (s : State) :
    (hostWrite space i w s).sizes = s.sizes := by
  rcases hostWrite_cases space i w s with h | ⟨-, r, -, h⟩ | ⟨-, -, h⟩ | ⟨-, -, h⟩ | ⟨-, -, h⟩ <;>
    rw [h] <;> simp

@[simp] theorem resetEvent_sizes (s : State) : (resetEvent s).sizes = s.sizes := rfl

theorem perform_sizes (a : HostAction) (s t : State) (h : perform a s = .next t) : t.sizes = s.sizes := by
  unfold perform at h
  split at h
  · obtain ⟨hsizes, -⟩ := issue_keepsHostSide _ s t h
    exact hsizes
  · split at h <;> cases h <;> simp

theorem step_sizes (s t : State) (h : step s = .next t) : t.sizes = s.sizes := by
  rcases hs : s.script with _ | ⟨a, rest⟩
  · rw [step_nil s hs] at h; cases h; rfl
  · rw [step_cons a rest s hs] at h; exact (perform_sizes a _ t h).trans rfl

/-- Settles O58: no host action changes the sizes, so no step does. -/
theorem sizesNeverChange : Obligations.SizesNeverChange := step_sizes

/-! ### What a sequence says about its cells -/

/-- A slice of the carrier within `CAR_LEN` is a slice of `seq(CAR)` (R14). -/
theorem carSlice_eq_take_drop (start count : Nat) (s : State) (h : start + count ≤ s.carLen.toNat) :
    carSlice start count s = ((seqCar s).drop start).take count := by
  rw [seqCar, cells_slice _ _ _ _ _ h, Nat.zero_add, carSlice]

/-- A carrier cell within `CAR_LEN` is an entry of `seq(CAR)`. -/
theorem seqCar_getElem? (k : Nat) (s : State) (h : k < s.carLen.toNat) :
    (seqCar s)[k]? = some (readCar k s) := by
  rw [seqCar, cells_getElem? _ _ _ _ h, Nat.zero_add]

@[simp] theorem seqPay_embedFrom (i : Nat) (frame : List Bit) (s : State) :
    seqPay (embedFrom i frame s) = seqPay s := (congrArg seqPay (embedFrom_eq i frame s)).trans rfl

@[simp] theorem seqBit_embedFrom (i : Nat) (frame : List Bit) (s : State) :
    seqBit (embedFrom i frame s) = seqBit s := (congrArg seqBit (embedFrom_eq i frame s)).trans rfl

/-- Cells that hold a list's entries, read no further than the list goes, give its front. -/
theorem cells_getD_eq_take {α : Type} (vs : List α) (old : Nat → α) (n : Nat) (hn : n ≤ vs.length) :
    cells (fun j => (vs[j]?).getD (old j)) 0 n = vs.take n := by
  refine cells_eq_of_getElem? _ _ _ (List.length_take_of_le hn) fun k hk => ?_
  simp [List.getElem?_take_of_lt hk, List.getElem?_eq_getElem (hk.trans_le hn)]

/-- What `store(BIT, bits)` leaves in `seq(BIT)` in every state, also where the length wraps (log 10): the
cells below the wrapped length are all stored ones. -/
theorem seqBit_storeBit_eq_take (bits : List Bit) (s : State) :
    seqBit (storeBit bits s) = bits.take (bits.length % 2 ^ 32) := by
  simp only [seqBit, readBit_storeBit, storeBit_bitLen, BitVec.toNat_ofNat]
  exact cells_getD_eq_take bits _ _ (Nat.mod_le _ _)

/-- The same of `store(OUT, bytes)`. -/
theorem seqOut_storeOut_eq_take (bytes : List Byte) (s : State) :
    seqOut (storeOut bytes s) = bytes.take (bytes.length % 2 ^ 32) := by
  simp only [seqOut, readOut_storeOut, storeOut_outLen, BitVec.toNat_ofNat]
  exact cells_getD_eq_take bytes _ _ (Nat.mod_le _ _)

/-! ### States with the same operands: what is read of them, and what keeps them so -/

section SameOperands
variable {s t : State}

theorem readCar_of_sameOperands (h : SameOperands s t) (k : Nat) (hk : k < s.carLen.toNat) :
    readCar k t = readCar k s := by
  obtain ⟨-, hcarLen, -, -, -, -, -, hcar, -⟩ := h
  have := congrArg (·[k]?) hcar
  simpa only [seqCar_getElem? k s hk, seqCar_getElem? k t (hcarLen ▸ hk), Option.some.injEq] using this

theorem carSlice_of_sameOperands (h : SameOperands s t) (start count : Nat)
    (hc : start + count ≤ s.carLen.toNat) : carSlice start count t = carSlice start count s := by
  obtain ⟨-, hcarLen, -, -, -, -, -, hcar, -⟩ := h
  rw [carSlice_eq_take_drop _ _ _ hc, carSlice_eq_take_drop _ _ _ (hcarLen ▸ hc), hcar]

theorem carrierHeader_of_sameOperands (h : SameOperands s t) : carrierHeader t = carrierHeader s := by
  have ⟨_, hcarLen, _⟩ := h
  unfold carrierHeader
  rw [hcarLen]
  split
  · rfl
  · next hc => rw [carSlice_of_sameOperands h 0 _ (by omega)]

theorem knownLength_of_sameOperands (h : SameOperands s t) : knownLength t = knownLength s := by
  obtain ⟨-, -, -, hknown, hklv, -⟩ := h
  rw [knownLength, knownLength, hknown, hklv]

theorem storeBit_sameOperands (bits : List Bit) (h : SameOperands s t) :
    SameOperands (storeBit bits s) (storeBit bits t) := by
  obtain ⟨hpayLen, hcarLen, -, hknown, hklv, hint, hpay, hcar, -⟩ := h
  have hbit : seqBit (storeBit bits t) = seqBit (storeBit bits s) := by
    rw [seqBit_storeBit_eq_take, seqBit_storeBit_eq_take]
  exact ⟨hpayLen, hcarLen, rfl, hknown, hklv, hint, hpay, hcar, hbit⟩

theorem storeOut_sameOperands (bytes : List Byte) (h : SameOperands s t) :
    SameOperands (storeOut bytes s) (storeOut bytes t) := h

theorem setInt_sameOperands (x : Half) (h : SameOperands s t) :
    SameOperands { s with int := x } { t with int := x } := by
  obtain ⟨hpayLen, hcarLen, hbitLen, hknown, hklv, -, hpay, hcar, hbit⟩ := h
  exact ⟨hpayLen, hcarLen, hbitLen, hknown, hklv, rfl, hpay, hcar, hbit⟩

/-- The embed pass turns equal carriers into equal carriers: a cell it writes depends on that cell and the
frame alone. -/
theorem embedFrom_sameOperands (i : Nat) (frame : List Bit) (h : SameOperands s t) :
    SameOperands (embedFrom i frame s) (embedFrom i frame t) := by
  have hread := readCar_of_sameOperands h
  obtain ⟨hpayLen, hcarLen, hbitLen, hknown, hklv, hint, hpay, -, hbit⟩ := h
  have hcar : seqCar (embedFrom i frame t) = seqCar (embedFrom i frame s) := by
    rw [seqCar, seqCar, embedFrom_carLen, embedFrom_carLen, hcarLen]
    refine cells_congr _ _ fun k hk => ?_
    rw [Nat.zero_add, readCar_embedFrom, readCar_embedFrom, hread k hk]
  simp [SameOperands, hpayLen, hcarLen, hbitLen, hknown, hklv, hint, hpay, hcar, hbit]

/-! ### Commands on states with the same operands -/

/-- How two ends of one command agree (R11): on the report, on the operands and, when the command's result
goes into `OUT` and it succeeded, on `OUT_LEN` and `seq(OUT)`. -/
structure SameEnd (intoOut : Prop) (t₁ t₂ : State) : Prop where
  code : t₂.code = t₁.code
  errReq : t₂.errReq = t₁.errReq
  errAvail : t₂.errAvail = t₁.errAvail
  operands : SameOperands t₁ t₂
  out : intoOut → t₁.code = .ok → t₂.outLen = t₁.outLen ∧ seqOut t₂ = seqOut t₁

variable {intoOut : Prop}

theorem raise_code_ne_ok (e : CommandError) (s : State) : (raise e s).code ≠ .ok := by
  rcases raise_cases e s with ⟨_, _, -, h⟩ | ⟨c, hc, -, h⟩ <;> rw [h]
  · simp
  · exact hc

theorem raise_sameEnd (e : CommandError) (h : SameOperands s t) :
    SameEnd intoOut (raise e s) (raise e t) where
  code := by cases e <;> rfl
  errReq := by cases e <;> rfl
  errAvail := by cases e <;> rfl
  operands := by rw [raise_eq e s, raise_eq e t]; exact h
  out := fun _ hok => absurd hok (raise_code_ne_ok e s)

/-- A command that completed without a result for `OUT`. -/
theorem complete_sameEnd (hout : ¬ intoOut) (h : SameOperands s t) :
    SameEnd intoOut (complete s) (complete t) :=
  ⟨rfl, rfl, rfl, h, fun hp => absurd hp hout⟩

theorem complete_storeOut_sameEnd (bytes : List Byte) (h : SameOperands s t) :
    SameEnd intoOut (complete (storeOut bytes s)) (complete (storeOut bytes t)) := by
  have hout : seqOut (storeOut bytes t) = seqOut (storeOut bytes s) := by
    rw [seqOut_storeOut_eq_take, seqOut_storeOut_eq_take]
  exact ⟨rfl, rfl, rfl, storeOut_sameOperands bytes h, fun _ _ => ⟨rfl, hout⟩⟩

theorem embed_sameEnd (useHeader : Bool) (hout : ¬ intoOut) (h : SameOperands s t) :
    SameEnd intoOut (embed useHeader s) (embed useHeader t) := by
  have ⟨hpayLen, hcarLen, _, _, _, _, hpay, _⟩ := h
  simp only [embed, hpayLen, hcarLen, hpay]
  split
  · exact raise_sameEnd _ h
  split
  · exact raise_sameEnd _ h
  · exact complete_sameEnd hout (embedFrom_sameOperands _ _ h)

theorem extractSlice_sameEnd (start count : Nat) (h : SameOperands s t)
    (hc : start + count ≤ s.carLen.toNat) :
    SameEnd intoOut (extractSlice start count s) (extractSlice start count t) := by
  rw [extractSlice, extractSlice, carSlice_of_sameOperands h start count hc]
  exact complete_storeOut_sameEnd _ h

theorem extractHeader_sameEnd (h : SameOperands s t) :
    SameEnd intoOut (extractHeader s) (extractHeader t) := by
  have ⟨_, hcarLen, _⟩ := h
  simp only [extractHeader, carrierHeader_of_sameOperands h, hcarLen]
  cases carrierHeader s with
  | none => exact raise_sameEnd _ h
  | some n =>
    dsimp only
    split
    · exact raise_sameEnd _ h
    · next hc => exact extractSlice_sameEnd _ _ h (Nat.not_lt.mp hc)

theorem extractKnown_sameEnd (h : SameOperands s t) :
    SameEnd intoOut (extractKnown s) (extractKnown t) := by
  have ⟨_, hcarLen, _⟩ := h
  simp only [extractKnown, knownLength_of_sameOperands h, hcarLen]
  cases knownLength s with
  | none => exact raise_sameEnd _ h
  | some k =>
    dsimp only
    split
    · exact raise_sameEnd _ h
    · next hc => exact extractSlice_sameEnd _ _ h (by omega)

theorem execBits2i_sameEnd {t₁ t₂ : State} (hout : ¬ intoOut) (h : SameOperands s t)
    (h₁ : execBits2i s = .next t₁) (h₂ : execBits2i t = .next t₂) : SameEnd intoOut t₁ t₂ := by
  have ⟨_, _, _, _, _, _, _, _, hbit⟩ := h
  unfold execBits2i at h₁ h₂
  rw [hbit] at h₂
  cases hx : bitsToInt (seqBit s) with
  | none =>
    rw [hx] at h₁ h₂
    cases h₁; cases h₂
    exact raise_sameEnd _ h
  | some x =>
    rw [hx] at h₁ h₂
    cases h₁; cases h₂
    exact complete_sameEnd hout (setInt_sameOperands x h)

end SameOperands

/-- A command is a function of its operands (R11, R35). -/
theorem exec_sameEnd (i : Instr) {s₁ s₂ t₁ t₂ : State} (h : SameOperands s₁ s₂)
    (h₁ : exec i s₁ = .next t₁) (h₂ : exec i s₂ = .next t₂) :
    SameEnd (i = .bits2b ∨ i = .extractRaw ∨ i = .extractHdr) t₁ t₂ := by
  have ⟨_, _, _, _, _, hint, hpay, hcar, hbit⟩ := h
  cases i with
  | embedRaw => cases h₁; cases h₂; exact embed_sameEnd false (by simp) h
  | embedHdr => cases h₁; cases h₂; exact embed_sameEnd true (by simp) h
  | extractRaw => cases h₁; cases h₂; exact extractKnown_sameEnd h
  | extractHdr => cases h₁; cases h₂; exact extractHeader_sameEnd h
  | b2bits =>
    cases h₁; cases h₂; rw [hpay]
    exact complete_sameEnd (by simp) (storeBit_sameOperands _ h)
  | bits2b =>
    cases h₁; cases h₂; rw [hbit]
    exact complete_storeOut_sameEnd _ h
  | i2bits =>
    cases h₁; cases h₂; rw [hint]
    exact complete_sameEnd (by simp) (storeBit_sameOperands _ h)
  | bits2i => exact execBits2i_sameEnd (by simp) h h₁ h₂
  | lsbof =>
    cases h₁; cases h₂; rw [hcar]
    exact complete_sameEnd (by simp) (storeBit_sameOperands _ h)

/-- Settles O56: each command's branches are chosen, and its results computed, from the operands alone. -/
theorem commandsDependOnOperandsOnly : Obligations.CommandsDependOnOperandsOnly := by
  intro i s₁ s₂ t₁ t₂ h h₁ h₂
  obtain ⟨hcode, hreq, havail, hops, hout⟩ := exec_sameEnd i h h₁ h₂
  exact ⟨hcode, hreq, havail, hops, hout⟩

end Sys2Proof.Machine

/-! Family 10_state: the invariant of the block (R34, R50, R51), the host's register file (R20 to R28), what
the host cannot change (R45, R60, R61) and what sets and clears `KLV` (R27). -/

namespace Sys2Proof.Machine

/-! ### One step, by the action it performs -/

/-- Everything performing an action can be (R179): a command, another write, a read or reset. -/
theorem perform_cases {a : HostAction} {s t : State} (h : perform a s = .next t) :
    (∃ w, a = .write .reg 0 w ∧ issue w s = .next t) ∨
    (∃ space i w, a = .write space i w ∧ ¬ (space = .reg ∧ i = 0) ∧ t = hostWrite space i w s) ∨
    (∃ space i, a = .read space i ∧ t = { s with replies := s.replies ++ [hostRead space i s] }) ∨
    (a = .reset ∧ t = resetEvent s) := by
  cases a with
  | write space i w =>
    by_cases hcmd : space = .reg ∧ i = 0
    · obtain ⟨rfl, rfl⟩ := hcmd
      exact .inl ⟨w, rfl, h⟩
    · rw [perform_write space i w s hcmd] at h; cases h
      exact .inr (.inl ⟨space, i, w, rfl, hcmd, rfl⟩)
  | read space i => cases h; exact .inr (.inr (.inl ⟨space, i, rfl, rfl⟩))
  | reset => cases h; exact .inr (.inr (.inr ⟨rfl, rfl⟩))

/-- Everything a step can be: idle, or the first action of the script performed (R10, R66). -/
theorem step_cases {s t : State} (h : step s = .next t) :
    (s.script = [] ∧ t = s) ∨
    (∃ a rest, s.script = a :: rest ∧ perform a { s with script := rest } = .next t) := by
  rcases hs : s.script with _ | ⟨a, rest⟩
  · rw [step_nil s hs] at h; cases h
    exact .inl ⟨rfl, rfl⟩
  · exact .inr ⟨a, rest, rfl, step_cons a rest s hs ▸ h⟩

/-! ### Every operation keeps the invariant -/

section Invariant
variable {s : State}

/-- A write of an existing cell keeps a space canonical and within its size. -/
theorem write_keepsLegal {α : Type} {n i : Nat} {m : Memory α} (v : α) (hi : i < n)
    (h : Memory.wf m = true ∧ Memory.within n m = true) :
    Memory.wf (Memory.write i v m) = true ∧ Memory.within n (Memory.write i v m) = true :=
  ⟨wf_write i v m h.1, within_write n i v m hi h.2⟩

/-- So does `store` of a result that fits the space. -/
theorem writeSeq_keepsLegal {α : Type} {n : Nat} {m : Memory α} (vs : List α) (hn : vs.length ≤ n)
    (h : Memory.wf m = true ∧ Memory.within n m = true) :
    Memory.wf (Memory.writeSeq 0 vs m) = true ∧ Memory.within n (Memory.writeSeq 0 vs m) = true :=
  ⟨wf_writeSeq 0 vs m h.1, within_writeSeq n 0 vs m (by omega) h.2⟩

/-- A length register set to a number that fits the space is within it, whether or not it wraps. -/
theorem toNat_ofNat_le {k n : Nat} (h : k ≤ n) : (BitVec.ofNat 32 k).toNat ≤ n := by
  rw [BitVec.toNat_ofNat]
  exact (Nat.mod_le k _).trans h

theorem complete_inv (h : s.Inv) : (complete s).Inv := h

theorem raise_inv (e : CommandError) (h : s.Inv) : (raise e s).Inv := by
  rw [raise_eq]; exact h

theorem setInt_inv (x : Half) (h : s.Inv) : State.Inv { s with int := x } := h

theorem storeBit_inv (bits : List Bit) (hn : bits.length ≤ bitMax s.sizes) (h : s.Inv) :
    (storeBit bits s).Inv := by
  obtain ⟨hsizes, ⟨hpayLen, hcarLen, -, houtLen⟩, hpay, hcar, hbit, hout⟩ := h
  exact ⟨hsizes, ⟨hpayLen, hcarLen, toNat_ofNat_le hn, houtLen⟩, hpay, hcar,
    writeSeq_keepsLegal bits hn hbit, hout⟩

theorem storeOut_inv (bytes : List Byte) (hn : bytes.length ≤ outMax s.sizes) (h : s.Inv) :
    (storeOut bytes s).Inv := by
  obtain ⟨hsizes, ⟨hpayLen, hcarLen, hbitLen, -⟩, hpay, hcar, hbit, hout⟩ := h
  exact ⟨hsizes, ⟨hpayLen, hcarLen, hbitLen, toNat_ofNat_le hn⟩, hpay, hcar, hbit,
    writeSeq_keepsLegal bytes hn hout⟩

theorem writePay_inv (i : Nat) (v : Byte) (hi : i < s.sizes.payMax) (h : s.Inv) : (writePay i v s).Inv := by
  obtain ⟨hsizes, hlens, hpay, hrest⟩ := h
  exact ⟨hsizes, hlens, write_keepsLegal v hi hpay, hrest⟩

theorem writeCar_inv (i : Nat) (v : Byte) (hi : i < s.sizes.carMax) (h : s.Inv) : (writeCar i v s).Inv := by
  obtain ⟨hsizes, hlens, hpay, hcar, hrest⟩ := h
  exact ⟨hsizes, hlens, hpay, write_keepsLegal v hi hcar, hrest⟩

theorem writeBit_inv (i : Nat) (v : Bit) (hi : i < bitMax s.sizes) (h : s.Inv) : (writeBit i v s).Inv := by
  obtain ⟨hsizes, hlens, hpay, hcar, hbit, hout⟩ := h
  exact ⟨hsizes, hlens, hpay, hcar, write_keepsLegal v hi hbit, hout⟩

theorem embedFrom_inv (i : Nat) (frame : List Bit) (hn : i + frame.length ≤ s.sizes.carMax) (h : s.Inv) :
    (embedFrom i frame s).Inv := by
  induction frame generalizing i s with
  | nil => exact h
  | cons b bs ih =>
    rw [List.length_cons] at hn
    exact ih (i + 1) (by simp only [writeCar_sizes]; omega) (writeCar_inv i _ (by omega) h)

/-! What the commands store fits: each result against the size of its space (R9, R36). -/

theorem bytesToBits_seqPay_fits (h : s.Inv) : (bytesToBits (seqPay s)).length ≤ bitMax s.sizes := by
  obtain ⟨-, ⟨hpayLen, -⟩, -⟩ := h
  rw [bytesToBits_length, seqPay_length, bitMax]
  omega

theorem intToBits_fits (x : Half) (z : Config.Sizes) : (intToBits x).length ≤ bitMax z := by
  rw [intToBits_length]
  exact le_max_right _ _

theorem carLen_le_bitMax (h : s.Inv) : s.carLen.toNat ≤ bitMax s.sizes := by
  obtain ⟨-, ⟨-, hcarLen, -⟩, -⟩ := h
  exact hcarLen.trans (le_max_of_le_left (le_max_right _ _))

theorem lsbOf_seqCar_fits (h : s.Inv) : (lsbOf (seqCar s)).length ≤ bitMax s.sizes := by
  rw [lsbOf_length, seqCar_length]
  exact carLen_le_bitMax h

theorem bitsToBytes_seqBit_fits (h : s.Inv) : (bitsToBytes (seqBit s)).length ≤ outMax s.sizes := by
  obtain ⟨-, ⟨-, -, hbitLen, -⟩, -⟩ := h
  rw [bitsToBytes_length, seqBit_length]
  exact Nat.div_le_div_right hbitLen

theorem extractBytes_fits (start count : Nat) (hc : start + count ≤ s.carLen.toNat) (h : s.Inv) :
    (bitsToBytes (lsbOf (carSlice start count s))).length ≤ outMax s.sizes := by
  have := carLen_le_bitMax h
  rw [extractBytes_length]
  exact Nat.div_le_div_right (by omega)

theorem frameOf_fits (useHeader : Bool) (hc : frameLength useHeader s.payLen.toNat ≤ s.carLen.toNat)
    (h : s.Inv) : (frameOf useHeader (seqPay s)).length ≤ s.sizes.carMax := by
  obtain ⟨-, ⟨-, hcarLen, -⟩, -⟩ := h
  rw [frameOf_length, seqPay_length]
  exact hc.trans hcarLen

/-- Every command keeps the invariant: whatever it stores fits. -/
theorem exec_inv (i : Instr) {t : State} (h : s.Inv) (ht : exec i s = .next t) : t.Inv := by
  rcases exec_cases i s with ⟨e, he⟩ | ⟨bits, he, hb⟩ | ⟨bytes, he, hb⟩ | ⟨x, -, he⟩ | ⟨useHeader, -, hc, he⟩ <;>
    rw [he] at ht <;> cases ht
  · exact raise_inv e h
  · refine complete_inv (storeBit_inv bits ?_ h)
    rcases hb with ⟨-, rfl⟩ | ⟨-, rfl⟩ | ⟨-, rfl⟩
    · exact bytesToBits_seqPay_fits h
    · exact intToBits_fits s.int s.sizes
    · exact lsbOf_seqCar_fits h
  · refine complete_inv (storeOut_inv bytes ?_ h)
    rcases hb with ⟨-, rfl⟩ | ⟨-, start, count, hc, rfl⟩
    · exact bitsToBytes_seqBit_fits h
    · exact extractBytes_fits start count hc h
  · exact complete_inv (setInt_inv x h)
  · exact complete_inv (embedFrom_inv 0 _ (by simpa using frameOf_fits useHeader hc h) h)

theorem issue_inv (w : Word) {t : State} (h : s.Inv) (ht : issue w s = .next t) : t.Inv := by
  rcases issue_cases w s with ⟨i, -, hi⟩ | ⟨e, -, he⟩
  · exact exec_inv i h (hi ▸ ht)
  · rw [he] at ht; cases ht
    exact raise_inv _ h

/-- A register write keeps the invariant: a length beyond its space is ignored (R34). -/
theorem writeReg_inv (r : Reg) (w : Word) (h : s.Inv) : (writeReg r w s).Inv := by
  have ⟨hsizes, ⟨hpayLen, hcarLen, hbitLen, houtLen⟩, hcells⟩ := h
  rcases writeReg_cases r w s with hr | ⟨-, hw, hr⟩ | ⟨-, hw, hr⟩ | ⟨-, hw, hr⟩ | ⟨-, hr⟩ | ⟨-, hr⟩ <;> rw [hr]
  · exact h
  · exact ⟨hsizes, ⟨hw, hcarLen, hbitLen, houtLen⟩, hcells⟩
  · exact ⟨hsizes, ⟨hpayLen, hw, hbitLen, houtLen⟩, hcells⟩
  · exact ⟨hsizes, ⟨hpayLen, hcarLen, hw, houtLen⟩, hcells⟩
  · exact h
  · exact h

/-- A host write keeps the invariant: a cell beyond its space is ignored (R60). -/
theorem hostWrite_inv (space : Space) (i : Nat) (w : Word) (h : s.Inv) : (hostWrite space i w s).Inv := by
  rcases hostWrite_cases space i w s with
    hw | ⟨-, r, -, hw⟩ | ⟨-, hi, hw⟩ | ⟨-, hi, hw⟩ | ⟨-, hi, hw⟩ <;> rw [hw]
  · exact h
  · exact writeReg_inv r w h
  · exact writePay_inv i _ hi h
  · exact writeCar_inv i _ hi h
  · exact writeBit_inv i _ hi h

/-- The reset event leaves the lengths and the spaces of the state after reset, and the sizes as they are. -/
theorem resetEvent_inv (h : s.Inv) : (resetEvent s).Inv := by
  obtain ⟨hsizes, -⟩ := h
  have hlens : (resetEvent s).LengthsLegal :=
    ⟨Nat.zero_le _, Nat.zero_le _, Nat.zero_le _, Nat.zero_le _⟩
  exact ⟨hsizes, hlens, ⟨rfl, rfl⟩, ⟨rfl, rfl⟩, ⟨rfl, rfl⟩, ⟨rfl, rfl⟩⟩

theorem perform_inv (a : HostAction) {t : State} (h : s.Inv) (ht : perform a s = .next t) : t.Inv := by
  rcases perform_cases ht with ⟨w, -, hw⟩ | ⟨space, i, w, -, -, rfl⟩ | ⟨space, i, -, rfl⟩ | ⟨-, rfl⟩
  · exact issue_inv w h hw
  · exact hostWrite_inv space i w h
  · exact h
  · exact resetEvent_inv h

theorem step_inv {t : State} (h : s.Inv) (ht : step s = .next t) : t.Inv := by
  rcases step_cases ht with ⟨-, rfl⟩ | ⟨a, rest, -, ha⟩
  · exact h
  · have hrest : State.Inv { s with script := rest } := h
    exact perform_inv a hrest ha

end Invariant

/-- Settles O47: every action a step can perform keeps the invariant. -/
theorem stepKeepsInvariant : Obligations.StepKeepsInvariant := fun _ _ => step_inv

/-! ### A step that writes: `CMD`, another register, or a place that ignores it -/

/-- A host write of anything but `CMD` as a step (R66). -/
theorem step_write {s : State} {space : Space} {i : Nat} {w : Word} {rest : List HostAction}
    (hs : s.script = .write space i w :: rest) (h : ¬ (space = .reg ∧ i = 0)) :
    step s = .next (hostWrite space i w { s with script := rest }) := by
  rw [step_cons _ rest s hs, perform_write space i w _ h]

/-- A host write of `CMD` as a step (R21). -/
theorem step_command {s : State} {w : Word} {rest : List HostAction}
    (hs : s.script = .write .reg 0 w :: rest) : step s = issue w { s with script := rest } := by
  rw [step_cons _ rest s hs, perform_command]

theorem issue_of_decode_ok {w : Word} {i : Instr} (h : decode w = .ok i) (s : State) :
    issue w s = exec i s := by simp [issue, h]

theorem issue_of_decode_error {w : Word} {e : IllegalWord} (h : decode w = .error e) (s : State) :
    issue w s = .next (raise .illegalOperation s) := by simp [issue, h]

/-- A word the opcode table gives a command decodes to that command (R75). -/
theorem decode_of_decodeTableWord {nbits w : Nat} {i : Instr} (h : decodeTableWord nbits w = some i) :
    decode (BitVec.ofNat 32 w) = .ok i := by
  unfold decodeTableWord at h
  split at h
  · cases hd : decode (BitVec.ofNat 32 w) with
    | ok j => rw [hd] at h; cases h; rfl
    | error e => rw [hd] at h; cases h
  · cases h

/-- The step after `withFetchWord` issues the word. -/
theorem step_withFetchWord (s : State) (nbits w : Nat) :
    step (s.withFetchWord nbits w) = issue (BitVec.ofNat 32 (w % 2 ^ nbits)) s := rfl

/-- Settles O5: the write of `CMD` issues its word, and so does the step after `withFetchWord`. -/
theorem stepRunsDecodedCommand : Obligations.StepRunsDecodedCommand := by
  refine ⟨fun s w i rest hs hd => ?_, fun s w e rest hs hd => ?_, fun s w i hw hd => ?_⟩
  · rw [step_command hs, issue_of_decode_ok hd]
  · rw [step_command hs, issue_of_decode_error hd]
  · rw [step_withFetchWord, Nat.mod_eq_of_lt hw, issue_of_decode_ok (decode_of_decodeTableWord hd)]

/-- Settles O15: a write outside its space, or to `OUT`, is no write. -/
theorem hostWriteOutsideIsIgnored : Obligations.HostWriteOutsideIsIgnored := by
  intro s space i w rest hs hout
  have hcmd : ¬ (space = .reg ∧ i = 0) := by
    rintro ⟨rfl, rfl⟩
    simp at hout
  rw [step_write hs hcmd]
  rcases hout with ⟨rfl, h⟩ | ⟨rfl, h⟩ | ⟨rfl, h⟩ | ⟨rfl, h⟩ | rfl
  · exact congrArg _ (hostWrite_outside .reg i w _ h)
  · exact congrArg _ (hostWrite_outside .pay i w _ h)
  · exact congrArg _ (hostWrite_outside .car i w _ h)
  · exact congrArg _ (hostWrite_outside .bit i w _ h)
  · exact congrArg _ (hostWrite_out i w _)

/-! ### The register file: what a register write does, field by field -/

/-- A register write in every field it can touch: the length it names if that is within the space (R34),
`KNOWN_LEN` with `KLV` (R27), the low half of `INT` (R28); a read-only register takes nothing (R61). -/
theorem writeReg_eq (r : Reg) (w : Word) (s : State) : writeReg r w s =
    { s with
      payLen := if r = .payLen ∧ w.toNat ≤ s.sizes.payMax then w else s.payLen
      carLen := if r = .carLen ∧ w.toNat ≤ s.sizes.carMax then w else s.carLen
      bitLen := if r = .bitLen ∧ w.toNat ≤ bitMax s.sizes then w else s.bitLen
      knownLen := if r = .knownLen then w else s.knownLen
      klv := s.klv || decide (r = .knownLen)
      int := if r = .int then w.setWidth 16 else s.int } := by
  cases r with
  | payLen => by_cases h : w.toNat ≤ s.sizes.payMax <;> simp [writeReg, h]
  | carLen => by_cases h : w.toNat ≤ s.sizes.carMax <;> simp [writeReg, h]
  | bitLen => by_cases h : w.toNat ≤ bitMax s.sizes <;> simp [writeReg, h]
  | _ => simp [writeReg]

/-- A register write shows at no other register but `STATUS`, which holds `KLV`. -/
theorem readReg_writeReg_of_ne {r r' : Reg} (hne : r' ≠ r) (hst : r' ≠ .status) (w : Word) (s : State) :
    readReg r' (writeReg r w s) = readReg r' s := by
  rw [writeReg_eq]
  cases r' with
  | status => exact absurd rfl hst
  | _ => simp [readReg, hne.symm]

/-- Two registers do not share a number (R20). -/
theorem number_injective : Function.Injective Reg.number := fun r r' h =>
  Option.some.inj (by rw [← ofNumber_number r, h, ofNumber_number])

/-- `INT` is read zero-extended (R28). -/
theorem readReg_int_toNat (s : State) : (readReg .int s).toNat = s.int.toNat :=
  BitVec.toNat_setWidth_of_le (by decide)

/-- Settles O13, from the register write field by field. -/
theorem hostWritesRegister : Obligations.HostWritesRegister := by
  intro s r w rest hr hs
  have hcmd : ¬ (Space.reg = .reg ∧ r.number = 0) := fun ⟨_, h⟩ => hr (number_injective h)
  have hstep : step s = .next (writeReg r w { s with script := rest }) := by
    rw [step_write hs hcmd, hostWrite_reg]
  have hread (r' : Reg) (hne : r' ≠ r) (hst : r' ≠ .status) :
      readReg r' (writeReg r w { s with script := rest }) = readReg r' s :=
    (readReg_writeReg_of_ne hne hst w _).trans (by cases r' <;> rfl)
  rw [writeReg_eq] at hstep hread
  refine ⟨_, hstep, rfl, rfl, rfl, rfl, rfl, rfl, rfl, rfl, rfl, rfl, hread, ?_, ?_, ?_, ?_, ?_,
    fun _ => rfl, fun _ => rfl, fun _ => rfl⟩ <;> rintro rfl
  all_goals simp [readReg_int_toNat]

/-- `STATUS` bit by bit: `CODE`, then `KLV` alone among the reserved bits (R22). -/
theorem statusWord_getLsbD (code : ResultCode) (klv : Bool) (k : Nat) :
    (statusWord code klv).getLsbD k =
      if k < 3 then (codeNumber code).getLsbD k else if k = 8 then klv else false := by
  simp only [statusWord, BitVec.getLsbD_append, BitVec.getLsbD_zero]
  rcases Nat.lt_trichotomy k 8 with hk | rfl | hk
  · simp [hk, Nat.lt_succ_of_lt hk, hk.ne]
  · simp
  · have h9 : ¬ k < 9 := by omega
    have h3 : ¬ k < 3 := by omega
    simp [h9, h3, hk.ne']

/-- Settles O10: bit by bit; the number in bits 2:0 is the word cut to three bits. -/
theorem statusWordFields : Obligations.StatusWordFields := by
  intro s
  have hcode : (statusWord s.code s.klv).setWidth 3 = codeNumber s.code := by
    ext k hk
    simp [statusWord_getLsbD, hk]
  refine ⟨?_, ?_, fun k hk hk8 => ?_⟩
  · exact (BitVec.toNat_setWidth 3 _).symm.trans (congrArg BitVec.toNat hcode)
  · exact statusWord_getLsbD s.code s.klv 8
  · simp [readReg, statusWord_getLsbD, hk8, Nat.not_lt.mpr hk]

/-- Settles O12: a host read at a register's number reads that register whole. -/
theorem registersReadWhole : Obligations.RegistersReadWhole := by
  have hint (s : State) : (readReg .int s).toNat < 65536 := by
    rw [readReg_int_toNat]; exact s.int.isLt
  refine ⟨by decide, fun s => ?_, fun s => ?_⟩
  · exact ⟨hostRead_reg .cmd s, hostRead_reg .status s, hostRead_reg .payLen s, hostRead_reg .carLen s,
      hostRead_reg .bitLen s, hostRead_reg .outLen s, hostRead_reg .knownLen s,
      hostRead_reg .int s ▸ readReg_int_toNat s, hostRead_reg .int s ▸ hint s,
      hostRead_reg .errReq s, hostRead_reg .errAvail s⟩
  · exact ⟨rfl, rfl, rfl, rfl, rfl, rfl, rfl, readReg_int_toNat s, hint s, rfl, rfl⟩

/-- A register the host cannot write ignores it (R61). -/
theorem writeReg_readOnly {r : Reg} (h : r = .status ∨ r = .outLen ∨ r = .errReq ∨ r = .errAvail)
    (w : Word) (s : State) : writeReg r w s = s := by
  rcases h with rfl | rfl | rfl | rfl <;> rfl

/-- Settles O14: absent registers are outside `REG`, read-only state takes no write, `CMD` holds nothing. -/
theorem absentAndReadOnlyState : Obligations.AbsentAndReadOnlyState := by
  refine fun s => ⟨fun i w hi => ?_, fun r w hr => ?_, fun i w => ?_, ?_⟩
  · exact ⟨hostRead_outside .reg i s hi, hostWrite_outside .reg i w s hi⟩
  · rw [hostWrite_reg, writeReg_readOnly hr]
  · exact hostWrite_out i w s
  · exact hostRead_reg .cmd s

/-! ### A step that reads -/

/-- A host read as a step: one reply and nothing else (R64). -/
theorem step_read {s : State} {space : Space} {i : Nat} {rest : List HostAction}
    (hs : s.script = .read space i :: rest) :
    step s = .next { s with script := rest, replies := s.replies ++ [hostRead space i s] } := by
  rw [step_cons _ rest s hs, perform_read]
  cases space <;> rfl

/-- A word that is a value zero-extended, or 0, as a number (R59, R60). -/
theorem toNat_of_zeroExtended_or_zero {n : Nat} {v : Word} {c : BitVec n} {p : Prop} [Decidable p]
    (hn : n ≤ 32) (hin : p → v = c.setWidth 32) (hout : ¬ p → v = 0) :
    v.toNat = if p then c.toNat else 0 := by
  split
  · next h => rw [hin h, BitVec.toNat_setWidth_of_le hn]
  · next h => rw [hout h]; rfl

theorem hostRead_pay_toNat (i : Nat) (s : State) :
    (hostRead .pay i s).toNat = if i < s.sizes.payMax then (readPay i s).toNat else 0 :=
  toNat_of_zeroExtended_or_zero (by decide) (hostRead_pay i s)
    fun h => hostRead_outside .pay i s (Nat.not_lt.mp h)

theorem hostRead_car_toNat (i : Nat) (s : State) :
    (hostRead .car i s).toNat = if i < s.sizes.carMax then (readCar i s).toNat else 0 :=
  toNat_of_zeroExtended_or_zero (by decide) (hostRead_car i s)
    fun h => hostRead_outside .car i s (Nat.not_lt.mp h)

theorem hostRead_bit_toNat (i : Nat) (s : State) :
    (hostRead .bit i s).toNat = if i < bitMax s.sizes then (readBit i s).toNat else 0 := by
  rw [← BitVec.toNat_ofBool]
  exact toNat_of_zeroExtended_or_zero (by decide) (hostRead_bit i s)
    fun h => hostRead_outside .bit i s (Nat.not_lt.mp h)

theorem hostRead_out_toNat (i : Nat) (s : State) :
    (hostRead .out i s).toNat = if i < outMax s.sizes then (readOut i s).toNat else 0 :=
  toNat_of_zeroExtended_or_zero (by decide) (hostRead_out i s)
    fun h => hostRead_outside .out i s (Nat.not_lt.mp h)

/-- Settles O17: the reply is the host read of the space, and the read is fixed space by space. -/
theorem hostReads : Obligations.HostReads := by
  intro s space i rest hs
  refine ⟨hostRead space i s, step_read hs, ?_, ?_, ?_, ?_, ?_, ?_⟩
  · rintro rfl hi; exact hostRead_outside .reg i s hi
  · rintro r rfl rfl; exact hostRead_reg r s
  · rintro rfl; exact hostRead_pay_toNat i s
  · rintro rfl; exact hostRead_car_toNat i s
  · rintro rfl; exact hostRead_bit_toNat i s
  · rintro rfl; exact hostRead_out_toNat i s

/-! ### What sets and clears `KLV` -/

theorem exec_klv (i : Instr) {s t : State} (h : exec i s = .next t) : t.klv = s.klv := by
  rcases exec_cases i s with ⟨e, he⟩ | ⟨b, he, -⟩ | ⟨b, he, -⟩ | ⟨x, -, he⟩ | ⟨x, -, -, he⟩ <;>
    rw [he] at h <;> cases h <;> simp

theorem issue_klv (w : Word) {s t : State} (h : issue w s = .next t) : t.klv = s.klv := by
  rcases issue_cases w s with ⟨i, -, hi⟩ | ⟨e, -, he⟩
  · exact exec_klv i (hi ▸ h)
  · rw [he] at h; cases h
    exact raise_klv _ s

@[simp] theorem writeReg_klv (r : Reg) (w : Word) (s : State) :
    (writeReg r w s).klv = (s.klv || decide (r = .knownLen)) := by rw [writeReg_eq]

/-- A host write sets `KLV` if it writes `KNOWN_LEN`, register 6, and otherwise leaves it (R27). -/
theorem hostWrite_klv (space : Space) (i : Nat) (w : Word) (s : State) :
    (hostWrite space i w s).klv = (s.klv || decide (space = .reg ∧ i = 6)) := by
  by_cases hknown : space = .reg ∧ i = 6
  · obtain ⟨rfl, rfl⟩ := hknown
    exact (congrArg State.klv (hostWrite_reg .knownLen w s)).trans (writeReg_klv .knownLen w s)
  · rw [decide_eq_false hknown, Bool.or_false]
    rcases hostWrite_cases space i w s with h | ⟨rfl, r, rfl, h⟩ | ⟨-, -, h⟩ | ⟨-, -, h⟩ | ⟨-, -, h⟩ <;> rw [h]
    · have hr : r ≠ .knownLen := fun hr => hknown ⟨rfl, congrArg Reg.number hr⟩
      rw [writeReg_klv, decide_eq_false hr, Bool.or_false]
    all_goals simp

/-- Settles O57: of the actions a step can perform, only a write of `KNOWN_LEN` and reset touch `KLV`. -/
theorem onlyHostAndResetChangeKlv : Obligations.OnlyHostAndResetChangeKlv := by
  intro s t ht
  rcases step_cases ht with ⟨hs, rfl⟩ | ⟨a, rest, hs, ha⟩ <;> rw [hs]
  · rfl
  rcases perform_cases ha with ⟨w, rfl, hw⟩ | ⟨space, i, w, rfl, -, rfl⟩ | ⟨space, i, rfl, rfl⟩ | ⟨rfl, rfl⟩
  · exact (issue_klv w hw).trans rfl
  · rw [hostWrite_klv]
    split
    · next h => cases h
    · next h => cases h; exact Bool.or_true _
    · next h =>
      have hknown : ¬ (space = .reg ∧ i = 6) := fun ⟨hreg, hi⟩ => h w (by rw [hreg, hi]; rfl)
      rw [decide_eq_false hknown, Bool.or_false]
  · rfl
  · rfl

end Sys2Proof.Machine

/-! Family 20_memory: what a host access of a cell does (R55, R59, R64, R66) and what a command can do to a
carrier byte (R55, R65, R179). -/

namespace Sys2Proof.Machine

/-! ### Host accesses as steps -/

/-- The reset event as a step (R175). -/
theorem step_reset {s : State} {rest : List HostAction} (hs : s.script = .reset :: rest) :
    step s = .next (resetEvent { s with script := rest }) := by
  rw [step_cons _ rest s hs, perform_reset]

/-- Settles O6: a step for each kind of host action but the write of `CMD`. -/
theorem stepPerformsHostAccess : Obligations.StepPerformsHostAccess :=
  ⟨fun _ _ _ _ _ => step_write, fun _ _ _ _ => step_read, fun _ _ => step_reset⟩

/-! ### A host write of a cell -/

/-- The cell exists and the host can write it (R60, R61). -/
abbrev WritableCell (space : Space) (i : Nat) (z : Config.Sizes) : Prop :=
  space = .pay ∧ i < z.payMax ∨ space = .car ∧ i < z.carMax ∨ space = .bit ∧ i < bitMax z

/-- A cell of a buffer space is not the register `CMD`. -/
theorem WritableCell.not_cmd {space : Space} {i : Nat} {z : Config.Sizes} (h : WritableCell space i z) :
    ¬ (space = .reg ∧ i = 0) := by
  rintro ⟨rfl, -⟩
  simp [WritableCell] at h

/-- A byte cell takes the data word modulo 256 (R59). -/
theorem setWidth_eq_ofNat_mod (w : Word) : w.setWidth 8 = BitVec.ofNat 8 (w.toNat % 256) :=
  BitVec.eq_of_toNat_eq (by simp)

/-- A bit cell takes the data word modulo 2 (R59). -/
theorem getLsbD_zero_eq_decide_mod {n : Nat} (w : BitVec n) : w.getLsbD 0 = decide (w.toNat % 2 = 1) := by
  rw [BitVec.getLsbD, Nat.testBit_zero]

/-- Settles O16: the write of the cell, space by space. -/
theorem hostWritesCell : Obligations.HostWritesCell := by
  intro s space i w rest hs hcell
  have hstep := step_write hs (WritableCell.not_cmd hcell)
  rcases hcell with ⟨rfl, hi⟩ | ⟨rfl, hi⟩ | ⟨rfl, hi⟩
  · rw [hostWrite_pay i w { s with script := rest } hi, setWidth_eq_ofNat_mod] at hstep
    refine ⟨_, hstep, rfl, rfl, rfl, fun r => by cases r <;> rfl, fun j => ?_,
      fun _ => (if_neg (by simp)).symm, fun _ => (if_neg (by simp)).symm, fun _ => rfl⟩
    simp only [readPay_writePay, true_and]; rfl
  · rw [hostWrite_car i w { s with script := rest } hi, setWidth_eq_ofNat_mod] at hstep
    refine ⟨_, hstep, rfl, rfl, rfl, fun r => by cases r <;> rfl,
      fun _ => (if_neg (by simp)).symm, fun j => ?_, fun _ => (if_neg (by simp)).symm, fun _ => rfl⟩
    simp only [readCar_writeCar, true_and]; rfl
  · rw [hostWrite_bit i w { s with script := rest } hi, getLsbD_zero_eq_decide_mod] at hstep
    refine ⟨_, hstep, rfl, rfl, rfl, fun r => by cases r <;> rfl,
      fun _ => (if_neg (by simp)).symm, fun _ => (if_neg (by simp)).symm, fun j => ?_, fun _ => rfl⟩
    simp only [readBit_writeBit, true_and]; rfl

/-! ### A host read of the cell just written -/

@[simp] theorem hostWrite_replies (space : Space) (i : Nat) (w : Word) (s : State) :
    (hostWrite space i w s).replies = s.replies := by
  rcases hostWrite_cases space i w s with h | ⟨-, r, -, h⟩ | ⟨-, -, h⟩ | ⟨-, -, h⟩ | ⟨-, -, h⟩ <;> rw [h]
  · rw [writeReg_eq]
  all_goals simp

/-- What the host reads of a cell it has just written: the low bits of the data word (R59, R66). -/
theorem hostRead_hostWrite {space : Space} {i : Nat} {s : State} (h : WritableCell space i s.sizes)
    (w : Word) :
    hostRead space i (hostWrite space i w s) =
      BitVec.ofNat 32 (w.toNat % (if space = .bit then 2 else 256)) := by
  rcases h with ⟨rfl, hi⟩ | ⟨rfl, hi⟩ | ⟨rfl, hi⟩ <;> apply BitVec.eq_of_toNat_eq
  · rw [hostRead_pay_toNat, hostWrite_sizes, if_pos hi, hostWrite_pay i w s hi, readPay_writePay, if_pos rfl]
    simp only [BitVec.toNat_setWidth, BitVec.toNat_ofNat, reduceCtorEq, if_false]; omega
  · rw [hostRead_car_toNat, hostWrite_sizes, if_pos hi, hostWrite_car i w s hi, readCar_writeCar, if_pos rfl]
    simp only [BitVec.toNat_setWidth, BitVec.toNat_ofNat, reduceCtorEq, if_false]; omega
  · rw [hostRead_bit_toNat, hostWrite_sizes, if_pos hi, hostWrite_bit i w s hi, readBit_writeBit, if_pos rfl,
      getLsbD_zero_eq_decide_mod]
    rcases Nat.mod_two_eq_zero_or_one w.toNat with hw | hw <;> simp [hw]

/-- Settles O18: the read step replies with what the write step left in the cell. -/
theorem readReturnsLastWrite : Obligations.ReadReturnsLastWrite := by
  intro s space i w rest hs hcell
  refine ⟨_, _, step_write hs (WritableCell.not_cmd hcell), step_read (hostWrite_script space i w _), rfl, ?_⟩
  rw [hostWrite_replies, hostRead_hostWrite]
  exact hcell

/-! ### A repeated host write -/

/-- Writing a register twice with one word is writing it once. -/
theorem writeReg_writeReg (r : Reg) (w : Word) (s : State) :
    writeReg r w (writeReg r w s) = writeReg r w s := by
  rcases writeReg_cases r w s with
    h | ⟨rfl, hw, h⟩ | ⟨rfl, hw, h⟩ | ⟨rfl, hw, h⟩ | ⟨rfl, h⟩ | ⟨rfl, h⟩ <;> rw [h]
  · exact h
  · exact if_pos hw
  · exact if_pos hw
  · exact if_pos hw
  · rfl
  · rfl

/-- A repeated host write finds the register or cell as it would leave it (R64). -/
theorem hostWrite_hostWrite (space : Space) (i : Nat) (w : Word) (s : State) :
    hostWrite space i w (hostWrite space i w s) = hostWrite space i w s := by
  rcases hostWrite_cases space i w s with h | ⟨rfl, r, rfl, h⟩ | ⟨rfl, hi, h⟩ | ⟨rfl, hi, h⟩ | ⟨rfl, hi, h⟩ <;>
    rw [h]
  · exact h
  · rw [hostWrite_reg, writeReg_writeReg]
  · rw [hostWrite_pay, writePay, writePay_pay, write_write]; exacts [rfl, hi]
  · rw [hostWrite_car, writeCar, writeCar_car, write_write]; exacts [rfl, hi]
  · rw [hostWrite_bit, writeBit, writeBit_bit, write_write]; exacts [rfl, hi]

/-- A host write neither reads nor changes the script. -/
theorem hostWrite_setScript (space : Space) (i : Nat) (w : Word) (s : State) (l : List HostAction) :
    hostWrite space i w { s with script := l } = { hostWrite space i w s with script := l } := by
  unfold hostWrite
  by_cases hi : i < spaceSize space s.sizes
  · rw [if_pos hi, if_pos hi]
    cases space with
    | reg =>
      cases Reg.ofNumber i with
      | none => rfl
      | some r => simp only [writeReg_eq]
    | _ => rfl
  · rw [if_neg hi, if_neg hi]

/-- Settles O19: the second write is performed on the state the first one left. -/
theorem repeatedHostWriteChangesNothing : Obligations.RepeatedHostWriteChangesNothing := by
  intro s space i w rest hcmd hs
  refine ⟨_, step_write hs hcmd, ?_⟩
  rw [step_write (hostWrite_script space i w _) hcmd, hostWrite_setScript, hostWrite_hostWrite]

/-! ### What a command can do to a carrier byte -/

/-- The parity write as arithmetic (R122): it adds 1 to an even byte only and subtracts 1 from an odd one
only, so neither wraps. -/
theorem setParity_toNat (b : Byte) (x : Bit) : (setParity b x).toNat = 2 * (b.toNat / 2) + x.toNat := by
  simp only [setParity, getLsbD_zero_eq_decide_mod]
  rcases Nat.mod_two_eq_zero_or_one b.toNat with hb | hb <;> cases x
  · simp [hb]; omega
  · simp [hb]; bv_omega
  · simp [hb]; bv_omega
  · simp [hb]; omega

/-- The parity write leaves bits 7:1 (R55). -/
theorem setParity_toNat_div_two (b : Byte) (x : Bit) : (setParity b x).toNat / 2 = b.toNat / 2 := by
  have := x.toNat_lt
  rw [setParity_toNat]
  omega

@[simp] theorem readCar_raise (j : Nat) (e : CommandError) (s : State) : readCar j (raise e s) = readCar j s :=
  readCar_congr (raise_car e s) (raise_resets e s) j

theorem exec_carLen (i : Instr) {s t : State} (h : exec i s = .next t) : t.carLen = s.carLen := by
  rcases exec_cases i s with ⟨e, he⟩ | ⟨b, he, -⟩ | ⟨b, he, -⟩ | ⟨x, -, he⟩ | ⟨x, -, -, he⟩ <;>
    rw [he] at h <;> cases h <;> simp

theorem exists_exec_eq_next (i : Instr) (s : State) : ∃ t, exec i s = .next t := by
  rcases exec_cases i s with ⟨e, he⟩ | ⟨b, he, -⟩ | ⟨b, he, -⟩ | ⟨x, -, he⟩ | ⟨x, -, -, he⟩ <;>
    exact ⟨_, he⟩

/-- Everything a command can do to a carrier byte: nothing, or a parity write by one of the embeds. -/
theorem exec_readCar_cases {i : Instr} {s t : State} (h : exec i s = .next t) (j : Nat) :
    readCar j t = readCar j s ∨
    ((i = .embedRaw ∨ i = .embedHdr) ∧ ∃ x, readCar j t = setParity (readCar j s) x) := by
  rcases exec_cases i s with ⟨e, he⟩ | ⟨b, he, -⟩ | ⟨b, he, -⟩ | ⟨x, -, he⟩ | ⟨useHeader, hi, -, he⟩ <;>
    rw [he] at h <;> cases h
  · exact .inl (readCar_raise j e s)
  · exact .inl rfl
  · exact .inl rfl
  · exact .inl rfl
  · rw [readCar_complete, readCar_embedFrom]
    split
    · exact .inr ⟨by cases useHeader <;> simp [hi], _, rfl⟩
    · exact .inl rfl

/-- A command other than an embed leaves the carrier (R65, R179). -/
theorem exec_keepsCar {i : Instr} {s t : State} (h : exec i s = .next t)
    (hi : ¬ (i = .embedRaw ∨ i = .embedHdr)) : KeepsCar s t :=
  ⟨exec_carLen i h, fun j => (exec_readCar_cases h j).resolve_right fun ⟨hembed, _⟩ => hi hembed⟩

/-- Settles O53: none of the three is an embed. -/
theorem extractAndLsbofLeaveCarrier : Obligations.ExtractAndLsbofLeaveCarrier := by
  intro i s hi
  obtain ⟨t, ht⟩ := exists_exec_eq_next i s
  exact ⟨t, ht, exec_keepsCar ht (by rcases hi with rfl | rfl | rfl <;> simp)⟩

/-- Settles O54: a parity write is all a command can do to a carrier byte, and only the embeds do it. -/
theorem onlyEmbedsChangeCarrierParities : Obligations.OnlyEmbedsChangeCarrierParities := by
  intro i s t j h
  refine ⟨?_, fun hraw hhdr => ?_⟩
  · rcases exec_readCar_cases h j with hj | ⟨-, x, hj⟩ <;> rw [hj]
    exact setParity_toNat_div_two _ x
  · obtain ⟨-, hcells⟩ := exec_keepsCar h (not_or.mpr ⟨hraw, hhdr⟩)
    exact hcells j

end Sys2Proof.Machine

/-! Family 30_encoding: the decoder and the encoder agree on every word (R77 to R82), and an illegal word
changes nothing but the report (R83). -/

namespace Sys2Proof.Machine

/-! ### A word and its fields -/

/-- No bit of a word is outside its fields (R77). -/
theorem wordOf_fieldsOf (w : Word) : wordOf (fieldsOf w) = w := by
  refine BitVec.eq_of_getLsbD_eq fun k hk => ?_
  rw [wordOf, fieldsOf, BitVec.getLsbD_append, BitVec.getLsbD_append]
  obtain hsel | rfl | hrsv : k < 3 ∨ k = 3 ∨ 4 ≤ k := by omega
  · simp [hsel, show k < 4 by omega]
  · simp
  · simp [show ¬ k < 4 by omega, show k - 4 < 28 by omega, Nat.add_sub_cancel' hrsv]

/-- `SEL` is its bits `Z`, `DIR` and `HDR` (R78). -/
theorem sel_eq_append (sel : BitVec 3) :
    sel = BitVec.ofBool (sel.getLsbD 2) ++
      (BitVec.ofBool (sel.getLsbD 1) ++ BitVec.ofBool (sel.getLsbD 0)) := by
  revert sel; decide

/-- A branch of R82 that answers a command has tested every field of the word. -/
theorem fieldsOf_of_decode_ok {w : Word} {i : Instr} (h : decode w = .ok i) : fieldsOf w = i.fields := by
  unfold decode at h
  generalize fieldsOf w = f at h ⊢
  obtain ⟨rsv, cls, sel⟩ := f
  dsimp only at h
  split_ifs at h with hrsv hcls hz
  · obtain rfl : rsv = 0 := not_not.mp hrsv
    subst hcls
    have hz : sel.getLsbD 2 = false := Bool.eq_false_iff.mpr hz
    split at h
    all_goals
      next hdir hhdr =>
        cases h
        rw [sel_eq_append sel, hz, hdir, hhdr]
        rfl
  · obtain rfl : rsv = 0 := not_not.mp hrsv
    obtain rfl : cls = true := Bool.eq_true_of_not_eq_false hcls
    split at h <;> cases h
    all_goals
      next hfn => exact congrArg (Fields.mk 0 true) (BitVec.eq_of_toNat_eq hfn)

/-! ### Decoding and encoding -/

@[simp] theorem decode_encode (i : Instr) : decode (encode i) = .ok i := by
  cases i <;> rfl

theorem decode_eq_ok_iff (w : Word) (i : Instr) : decode w = .ok i ↔ w = encode i := by
  constructor
  · intro h
    rw [encode, ← fieldsOf_of_decode_ok h, wordOf_fieldsOf]
  · rintro rfl
    exact decode_encode i

/-- Settles O1: a word is its fields, and the decoder answers a command only on the command's own fields. -/
theorem decodeAndEncodeAgree : Obligations.DecodeAndEncodeAgree := decode_eq_ok_iff

theorem decode_of_toNat_eq {w : Word} {i : Instr} {n : Nat} (hi : (encode i).toNat = n) (hw : w.toNat = n) :
    decode w = .ok i :=
  (decode_eq_ok_iff w i).mpr (BitVec.eq_of_toNat_eq (hw.trans hi.symm))

/-! ### Illegal words -/

/-- No command's word is in the ranges R83 calls illegal. -/
theorem encode_not_illegal (i : Instr) :
    ¬ (16 ≤ (encode i).toNat ∨ (4 ≤ (encode i).toNat ∧ (encode i).toNat ≤ 7) ∨
      (13 ≤ (encode i).toNat ∧ (encode i).toNat ≤ 15)) := by
  cases i <;> decide

theorem exists_decode_eq_error {w : Word}
    (hw : 16 ≤ w.toNat ∨ (4 ≤ w.toNat ∧ w.toNat ≤ 7) ∨ (13 ≤ w.toNat ∧ w.toNat ≤ 15)) :
    ∃ e, decode w = .error e := by
  cases h : decode w with
  | error e => exact ⟨e, rfl⟩
  | ok i =>
    obtain rfl := (decode_eq_ok_iff w i).mp h
    exact absurd hw (encode_not_illegal i)

/-- Settles O3: the nine words are the encoder's, and the words of the ranges are no command's. -/
theorem decodingIsTotal : Obligations.DecodingIsTotal := fun _ =>
  ⟨decode_of_toNat_eq rfl, decode_of_toNat_eq rfl, decode_of_toNat_eq rfl, decode_of_toNat_eq rfl,
    decode_of_toNat_eq rfl, decode_of_toNat_eq rfl, decode_of_toNat_eq rfl, decode_of_toNat_eq rfl,
    decode_of_toNat_eq rfl, exists_decode_eq_error⟩

/-- Settles O4: the word decodes to no command, so its issue is the report of `IllegalOperation` alone. -/
theorem illegalWordChangesOnlyTheReport : Obligations.IllegalWordChangesOnlyTheReport := by
  intro s w hw
  obtain ⟨e, he⟩ := exists_decode_eq_error hw
  exact issue_of_decode_error he s

/-! ### The table of R80 -/

/-- A word the encoder writes for a command is read as that command. -/
theorem decode_and_encode_of_encode_eq {w : Word} {i : Instr} (h : encode i = w) :
    decode w = .ok i ∧ encode i = w :=
  ⟨(decode_eq_ok_iff w i).mpr h.symm, h⟩

/-- Settles O2: each word of the table is the encoder's, so it is read as its command. -/
theorem tableWordsSelectCommands : Obligations.TableWordsSelectCommands :=
  ⟨decode_and_encode_of_encode_eq rfl, decode_and_encode_of_encode_eq rfl, decode_and_encode_of_encode_eq rfl,
    decode_and_encode_of_encode_eq rfl, decode_and_encode_of_encode_eq rfl, decode_and_encode_of_encode_eq rfl,
    decode_and_encode_of_encode_eq rfl, decode_and_encode_of_encode_eq rfl, decode_and_encode_of_encode_eq rfl⟩

end Sys2Proof.Machine

/-! Family 41_bitcodec: the five pure functions (R96 to R102) and what the five codec commands do with them
(R103 to R113). -/

namespace Sys2Proof.Machine

/-! ### Numbers read and written most significant bit first -/

/-- The number a bit sequence states, most significant bit first (R97, R99). -/
def msbFirst (bits : List Bit) : Nat := bits.foldl (fun x b => x * 2 + b.toNat) 0

/-- The bits of a number, most significant first (R52, R98). -/
def bitsMsbFirst {w : Nat} (x : BitVec w) : List Bit := (List.range w).map fun j => x.getLsbD (w - 1 - j)

/-- `byteBits` is `bitsMsbFirst` at 8 bits. -/
theorem byteBits_eq (b : Byte) : byteBits b = bitsMsbFirst b := rfl

/-- `intToBits` is `bitsMsbFirst` at 16 bits. -/
theorem intToBits_eq (x : Half) : intToBits x = bitsMsbFirst x := rfl

/-- `byteOfBits` is `msbFirst` of its eight bits. -/
theorem byteOfBits_eq (b7 b6 b5 b4 b3 b2 b1 b0 : Bit) :
    byteOfBits b7 b6 b5 b4 b3 b2 b1 b0 = BitVec.ofNat 8 (msbFirst [b7, b6, b5, b4, b3, b2, b1, b0]) := by
  rw [byteOfBits]
  congr 1
  simp only [msbFirst, List.foldl_cons, List.foldl_nil]
  omega

/-- `bitsToInt` is `msbFirst` of the first 16 entries. -/
theorem bitsToInt_eq {bits : List Bit} (h : 16 ≤ bits.length) :
    bitsToInt bits = some (BitVec.ofNat 16 (msbFirst (bits.take 16))) :=
  if_neg (Nat.not_lt.mpr h)

theorem msbFirst_concat (bits : List Bit) (b : Bit) :
    msbFirst (bits ++ [b]) = msbFirst bits * 2 + b.toNat := by
  simp [msbFirst]

theorem msbFirst_lt (bits : List Bit) : msbFirst bits < 2 ^ bits.length := by
  induction bits using List.reverseRecOn with
  | nil => exact Nat.one_pos
  | append_singleton bits b ih =>
    have := b.toNat_lt
    rw [msbFirst_concat, List.length_append, List.length_singleton, Nat.pow_succ]
    omega

/-- Bit i of the number is entry i from the end. -/
theorem testBit_msbFirst (bits : List Bit) (i : Nat) :
    (msbFirst bits).testBit i = bits.reverse.getD i false := by
  induction bits using List.reverseRecOn generalizing i with
  | nil => simp [msbFirst]
  | append_singleton bits b ih =>
    rw [msbFirst_concat, List.reverse_concat]
    cases i with
    | zero => cases b <;> simp
    | succ i =>
      have hdiv : (msbFirst bits * 2 + b.toNat) / 2 = msbFirst bits := by
        have := b.toNat_lt
        omega
      rw [Nat.testBit_succ, hdiv, ih, List.getD_cons_succ]

/-- A slice of a bit sequence as a number: the weighted sum of its entries (R97, R99). -/
theorem msbFirst_slice (bits : List Bit) (i n : Nat) (h : i + n ≤ bits.length) :
    msbFirst ((bits.drop i).take n) =
      ∑ j ∈ Finset.range n, (bits.getD (i + j) false).toNat * 2 ^ (n - 1 - j) := by
  induction n with
  | zero => rfl
  | succ n ih =>
    have hlast : (bits.drop i).take (n + 1) = (bits.drop i).take n ++ [bits.getD (i + n) false] := by
      have hn : n < (bits.drop i).length := by rw [List.length_drop]; omega
      rw [List.take_succ_eq_append_getElem hn, List.getElem_drop, List.getD_eq_getElem]
    have hdouble (j : Nat) (hj : j ∈ Finset.range n) :
        (bits.getD (i + j) false).toNat * 2 ^ (n + 1 - 1 - j) =
          (bits.getD (i + j) false).toNat * 2 ^ (n - 1 - j) * 2 := by
      have hj := Finset.mem_range.mp hj
      rw [mul_assoc, ← Nat.pow_succ]
      congr 2
      omega
    rw [hlast, msbFirst_concat, ih (by omega), Finset.sum_range_succ, Finset.sum_congr rfl hdouble,
      Finset.sum_mul]
    simp

section Width
variable {w : Nat}

@[simp] theorem bitsMsbFirst_length (x : BitVec w) : (bitsMsbFirst x).length = w := by simp [bitsMsbFirst]

@[simp] theorem bitsMsbFirst_getElem (x : BitVec w) {j : Nat} (hj : j < (bitsMsbFirst x).length) :
    (bitsMsbFirst x)[j] = x.getLsbD (w - 1 - j) := by
  simp [bitsMsbFirst]

theorem bitsMsbFirst_getElem? (x : BitVec w) {j : Nat} (hj : j < w) :
    (bitsMsbFirst x)[j]? = some (x.getLsbD (w - 1 - j)) := by
  rw [List.getElem?_eq_getElem (by simpa using hj), bitsMsbFirst_getElem]

theorem bitsMsbFirst_injective : Function.Injective (bitsMsbFirst (w := w)) := by
  refine fun x y h => BitVec.eq_of_getMsbD_eq fun j hj => ?_
  have hbit : x.getLsbD (w - 1 - j) = y.getLsbD (w - 1 - j) := Option.some.inj (by
    rw [← bitsMsbFirst_getElem? x hj, h, bitsMsbFirst_getElem? y hj])
  simp only [BitVec.getMsbD, hbit]

/-- Writing the number that w bits state gives those bits. -/
theorem bitsMsbFirst_ofNat_msbFirst {bits : List Bit} (h : bits.length = w) :
    bitsMsbFirst (BitVec.ofNat w (msbFirst bits)) = bits := by
  subst h
  refine List.ext_getElem (bitsMsbFirst_length _) fun j _ hj => ?_
  have hw : bits.length - 1 - j < bits.length := by omega
  have hrev : bits.length - 1 - (bits.length - 1 - j) = j := by omega
  rw [bitsMsbFirst_getElem, BitVec.getLsbD_ofNat, testBit_msbFirst,
    List.getD_eq_getElem _ _ (by simpa using hw)]
  simp [hw, hrev]

/-- Reading back a number's own bits gives the number. -/
theorem ofNat_msbFirst_bitsMsbFirst (x : BitVec w) : BitVec.ofNat w (msbFirst (bitsMsbFirst x)) = x :=
  bitsMsbFirst_injective (bitsMsbFirst_ofNat_msbFirst (bitsMsbFirst_length x))

/-- The number that w bits state fits in w bits. -/
theorem toNat_ofNat_msbFirst {bits : List Bit} (h : bits.length = w) :
    (BitVec.ofNat w (msbFirst bits)).toNat = msbFirst bits := by
  rw [BitVec.toNat_ofNat, Nat.mod_eq_of_lt (h ▸ msbFirst_lt bits)]

end Width

/-! ### `bytesToBits` and `bitsToBytes`, chunk by chunk -/

theorem bytesToBits_getElem? (bytes : List Byte) (i : Nat) (h : i < 8 * bytes.length) :
    (bytesToBits bytes)[i]? = some ((bytes.getD (i / 8) 0).getLsbD (7 - i % 8)) := by
  induction bytes generalizing i with
  | nil => exact absurd h (Nat.not_lt_zero i)
  | cons b bytes ih =>
    rw [List.length_cons] at h
    rw [bytesToBits_cons]
    by_cases hi : i < 8
    · rw [List.getElem?_append_left (by rwa [byteBits_length]), byteBits_eq, bitsMsbFirst_getElem? b hi,
        Nat.div_eq_of_lt hi, Nat.mod_eq_of_lt hi, List.getD_cons_zero]
    · have hdiv : i / 8 = (i - 8) / 8 + 1 := by omega
      have hmod : i % 8 = (i - 8) % 8 := by omega
      rw [List.getElem?_append_right (by rw [byteBits_length]; omega), byteBits_length, ih _ (by omega),
        hdiv, hmod, List.getD_cons_succ]

/-- A chunk of eight bits in front gives the first byte (R97). -/
theorem bitsToBytes_append {chunk : List Bit} (h : chunk.length = 8) (rest : List Bit) :
    bitsToBytes (chunk ++ rest) = BitVec.ofNat 8 (msbFirst chunk) :: bitsToBytes rest := by
  obtain ⟨b7, b6, b5, b4, b3, b2, b1, b0, rfl⟩ : ∃ b7 b6 b5 b4 b3 b2 b1 b0,
      chunk = [b7, b6, b5, b4, b3, b2, b1, b0] := by
    match chunk, h with
    | [b7, b6, b5, b4, b3, b2, b1, b0], _ => exact ⟨b7, b6, b5, b4, b3, b2, b1, b0, rfl⟩
  exact (bitsToBytes_chunk b7 b6 b5 b4 b3 b2 b1 b0 rest).trans (by rw [byteOfBits_eq])

/-- From eight bits on, the first eight are a chunk. -/
theorem bitsToBytes_eq_cons {bits : List Bit} (h : 8 ≤ bits.length) :
    bitsToBytes bits = BitVec.ofNat 8 (msbFirst (bits.take 8)) :: bitsToBytes (bits.drop 8) := by
  rw [← bitsToBytes_append (List.length_take_of_le h), List.take_append_drop]

theorem bitsToBytes_getElem? (bits : List Bit) (k : Nat) (h : k < bits.length / 8) :
    (bitsToBytes bits)[k]? = some (BitVec.ofNat 8 (msbFirst ((bits.drop (8 * k)).take 8))) := by
  induction k generalizing bits with
  | zero => rw [bitsToBytes_eq_cons (by omega)]; rfl
  | succ k ih =>
    have hk : k < (bits.drop 8).length / 8 := by rw [List.length_drop]; omega
    rw [bitsToBytes_eq_cons (by omega), List.getElem?_cons_succ, ih _ hk, List.drop_drop,
      Nat.mul_succ, Nat.add_comm]

theorem bitsToBytes_bytesToBits (bytes : List Byte) : bitsToBytes (bytesToBits bytes) = bytes := by
  induction bytes with
  | nil => rfl
  | cons b bytes ih =>
    rw [bytesToBits_cons, bitsToBytes_append (byteBits_length b), byteBits_eq, ofNat_msbFirst_bitsMsbFirst, ih]

/-- Whole chunks come back, the partial chunk does not (R101). -/
theorem bytesToBits_bitsToBytes (bits : List Bit) :
    bytesToBits (bitsToBytes bits) = bits.take (8 * (bits.length / 8)) := by
  by_cases h : bits.length < 8
  · rw [bitsToBytes_short bits h, Nat.div_eq_of_lt h]; rfl
  · have hchunk : (bits.take 8).length = 8 := List.length_take_of_le (Nat.not_lt.mp h)
    have hlen : 8 * (bits.length / 8) = 8 + 8 * ((bits.drop 8).length / 8) := by
      rw [List.length_drop]; omega
    rw [bitsToBytes_eq_cons (Nat.not_lt.mp h), bytesToBits_cons, byteBits_eq,
      bitsMsbFirst_ofNat_msbFirst hchunk, bytesToBits_bitsToBytes (bits.drop 8), hlen, List.take_add]
termination_by bits.length
decreasing_by rw [List.length_drop]; omega

/-! ### `bitsToInt` and `lsbOf` -/

theorem bitsToInt_intToBits (x : Half) : bitsToInt (intToBits x) = some x := by
  rw [bitsToInt_eq (intToBits_length x).ge, List.take_of_length_le (intToBits_length x).le, intToBits_eq,
    ofNat_msbFirst_bitsMsbFirst]

/-- Only the first 16 entries are read (R99). -/
theorem bitsToInt_take (bits : List Bit) : bitsToInt (bits.take 16) = bitsToInt bits := by
  simp [bitsToInt, List.take_take]

theorem lsbOf_take (bytes : List Byte) (n : Nat) : lsbOf (bytes.take n) = (lsbOf bytes).take n :=
  List.map_take

/-- The parity of a byte is its least significant bit (R100). -/
theorem getLsbD_zero_toNat (b : Byte) : (b.getLsbD 0).toNat = b.toNat % 2 := by
  rw [getLsbD_zero_eq_decide_mod]
  rcases Nat.mod_two_eq_zero_or_one b.toNat with h | h <;> rw [h] <;> rfl

/-! ### The pure functions' statements -/

/-- Settles O22: byte by byte, eight entries each. -/
theorem bytesToBitsIsMsbFirst : Obligations.BytesToBitsIsMsbFirst := fun bytes =>
  ⟨bytesToBits_length bytes, bytesToBits_getElem? bytes⟩

/-- Settles O23: byte k is the number its chunk states. -/
theorem bitsToBytesDropsPartialChunk : Obligations.BitsToBytesDropsPartialChunk := by
  refine fun bits => ⟨bitsToBytes_length bits, fun k hk => ⟨_, bitsToBytes_getElem? bits k hk, ?_⟩⟩
  have hfit : 8 * k + 8 ≤ bits.length := by omega
  have hchunk : ((bits.drop (8 * k)).take 8).length = 8 := by
    rw [List.length_take, List.length_drop]; omega
  rw [toNat_ofNat_msbFirst hchunk, msbFirst_slice bits _ _ hfit]

/-- Settles O24: `intToBits` is the number's bits, most significant first. -/
theorem intToBitsIsMsbFirst : Obligations.IntToBitsIsMsbFirst := fun x =>
  ⟨intToBits_length x, fun _ => bitsMsbFirst_getElem? x⟩

/-- Settles O25: the value is the number the first 16 entries state. -/
theorem bitsToIntReadsFirstSixteen : Obligations.BitsToIntReadsFirstSixteen := by
  refine fun bits => ⟨(bitsToInt_eq_none_iff bits).mpr, fun h => ⟨_, bitsToInt_eq h, ?_⟩⟩
  rw [toNat_ofNat_msbFirst (List.length_take_of_le h)]
  simpa using msbFirst_slice bits 0 16 (by omega)

/-- Settles O26: the parity of each byte. -/
theorem lsbOfIsParity : Obligations.LsbOfIsParity := by
  refine fun bytes => ⟨lsbOf_length bytes, fun k b hb => ⟨b.getLsbD 0, ?_, getLsbD_zero_toNat b⟩⟩
  rw [lsbOf, List.getElem?_map, hb]; rfl

/-- Settles O27: chunks come back as the bytes they were, and the front made of whole chunks is everything
exactly when there is no partial chunk. -/
theorem byteRoundTrip : Obligations.ByteRoundTrip := by
  refine ⟨bitsToBytes_bytesToBits, fun bits => ⟨bytesToBits_bitsToBytes bits, ?_⟩⟩
  rw [bytesToBits_bitsToBytes, List.take_eq_self_iff]
  omega

/-- Settles O28: a 16-bit number and its 16 bits determine each other. -/
theorem integerRoundTrip : Obligations.IntegerRoundTrip :=
  ⟨bitsToInt_intToBits, fun _ h =>
    ⟨_, bitsToInt_eq h, bitsMsbFirst_ofNat_msbFirst (List.length_take_of_le h)⟩⟩

/-! ### What a completed `store` leaves (R36) -/

/-- A length that fits the length register is held as it is. -/
theorem toNat_ofNat_of_lt {n : Nat} (h : n < 4294967296) : (BitVec.ofNat 32 n).toNat = n := by
  rw [BitVec.toNat_ofNat, Nat.mod_eq_of_lt h]

/-- A completed `store(BIT, bits)`: the result, the report and the frame. -/
theorem complete_storeBit_spec (s : State) {bits : List Bit} {n : Nat} (hlen : bits.length = n)
    (hn : n < 4294967296) {t : State} (ht : t = complete (storeBit bits s)) :
    seqBit t = bits ∧ t.bitLen.toNat = n ∧ (∀ i, n ≤ i → readBit i t = readBit i s) ∧ Ended .ok 0 0 t ∧
      KeepsPay s t ∧ KeepsCar s t ∧ KeepsOut s t ∧ KeepsInt s t ∧ KeepsKnown s t ∧ KeepsHostSide s t := by
  subst hlen ht
  have hbeyond (i : Nat) (hi : bits.length ≤ i) : readBit i (complete (storeBit bits s)) = readBit i s := by
    rw [readBit_complete, readBit_storeBit, List.getElem?_eq_none hi]; rfl
  exact ⟨seqBit_storeBit bits s hn, toNat_ofNat_of_lt hn, hbeyond, ⟨rfl, rfl, rfl⟩, ⟨rfl, fun _ => rfl⟩,
    ⟨rfl, fun _ => rfl⟩, ⟨rfl, fun _ => rfl⟩, rfl, ⟨rfl, rfl⟩, ⟨rfl, rfl, rfl, rfl⟩⟩

/-- A completed `store(OUT, bytes)`: the result, the report and the frame. -/
theorem complete_storeOut_spec (s : State) {bytes : List Byte} {n : Nat} (hlen : bytes.length = n)
    (hn : n < 4294967296) {t : State} (ht : t = complete (storeOut bytes s)) :
    seqOut t = bytes ∧ t.outLen.toNat = n ∧ (∀ i, n ≤ i → readOut i t = readOut i s) ∧ Ended .ok 0 0 t ∧
      KeepsPay s t ∧ KeepsCar s t ∧ KeepsBit s t ∧ KeepsInt s t ∧ KeepsKnown s t ∧ KeepsHostSide s t := by
  subst hlen ht
  have hbeyond (i : Nat) (hi : bytes.length ≤ i) :
      readOut i (complete (storeOut bytes s)) = readOut i s := by
    rw [readOut_complete, readOut_storeOut, List.getElem?_eq_none hi]; rfl
  exact ⟨seqOut_storeOut bytes s hn, toNat_ofNat_of_lt hn, hbeyond, ⟨rfl, rfl, rfl⟩, ⟨rfl, fun _ => rfl⟩,
    ⟨rfl, fun _ => rfl⟩, ⟨rfl, fun _ => rfl⟩, rfl, ⟨rfl, rfl⟩, ⟨rfl, rfl, rfl, rfl⟩⟩

/-! ### The five commands -/

/-- The payload's bits fit the length register (R9, R103). -/
theorem eight_mul_payLen_lt {s : State} (h : s.Inv) : 8 * s.payLen.toNat < 4294967296 := by
  obtain ⟨⟨-, -, -, hpayMax⟩, ⟨hpayLen, -⟩, -⟩ := h
  omega

theorem bytesToBits_seqPay_length (s : State) : (bytesToBits (seqPay s)).length = 8 * s.payLen.toNat := by
  rw [bytesToBits_length, seqPay_length]

theorem lsbOf_seqCar_length (s : State) : (lsbOf (seqCar s)).length = s.carLen.toNat := by
  rw [lsbOf_length, seqCar_length]

theorem bitsToBytes_seqBit_length (s : State) : (bitsToBytes (seqBit s)).length = s.bitLen.toNat / 8 := by
  rw [bitsToBytes_length, seqBit_length]

/-- Settles O31: a store into `BIT`, whose length fits the register because the invariant holds. -/
theorem b2bitsStoresPayloadBits : Obligations.B2bitsStoresPayloadBits :=
  ⟨decode_encode .b2bits, fun s h =>
    ⟨_, rfl, complete_storeBit_spec s (bytesToBits_seqPay_length s) (eight_mul_payLen_lt h) rfl⟩⟩

/-- Settles O32: a store into `OUT`, never longer than `BIT_LEN`. -/
theorem bits2bStoresWholeChunks : Obligations.Bits2bStoresWholeChunks :=
  ⟨decode_encode .bits2b, fun s =>
    ⟨_, rfl, complete_storeOut_spec s (bitsToBytes_seqBit_length s)
      ((Nat.div_le_self _ 8).trans_lt s.bitLen.isLt) rfl⟩⟩

/-- Settles O33: a store of 16 entries into `BIT`. -/
theorem i2bitsStoresSixteenBits : Obligations.I2bitsStoresSixteenBits :=
  ⟨decode_encode .i2bits, fun s =>
    ⟨_, rfl, complete_storeBit_spec s (intToBits_length s.int) (by decide) rfl⟩⟩

/-- Settles O34: the two cases of `BITS2I`. -/
theorem bits2iReadsOrRefuses : Obligations.Bits2iReadsOrRefuses := by
  refine ⟨decode_encode .bits2i, fun s => ?_⟩
  rcases execBits2i_cases s with ⟨hlt, he⟩ | ⟨hge, x, hx, he⟩
  · exact ⟨fun h => absurd hlt (Nat.not_lt.mpr h), fun _ => ⟨_, he, ⟨rfl, rfl, rfl⟩, rfl⟩⟩
  · exact ⟨fun _ => ⟨_, he, hx, readReg_int_toNat _, ⟨rfl, rfl, rfl⟩, ⟨rfl, fun _ => rfl⟩,
      ⟨rfl, fun _ => rfl⟩, ⟨rfl, fun _ => rfl⟩, ⟨rfl, fun _ => rfl⟩, ⟨rfl, rfl⟩, ⟨rfl, rfl, rfl, rfl⟩⟩,
      fun h => absurd h (Nat.not_lt.mpr hge)⟩

/-- Settles O35: a store into `BIT` of as many entries as `CAR_LEN`. -/
theorem lsbofStoresParities : Obligations.LsbofStoresParities := by
  refine ⟨decode_encode .lsbof, fun s => ?_⟩
  obtain ⟨hseq, hlen, hrest⟩ := complete_storeBit_spec s (lsbOf_seqCar_length s) s.carLen.isLt rfl
  refine ⟨_, rfl, hseq, BitVec.eq_of_toNat_eq hlen, fun k hk => ?_, hrest⟩
  have hcell : (lsbOf (seqCar s))[k]? = some ((readCar k s).getLsbD 0) := by
    rw [lsbOf, List.getElem?_map, seqCar_getElem? k s hk]; rfl
  rw [readBit_complete, readBit_storeBit, hcell]
  exact getLsbD_zero_toNat _

/-! ### One command after another -/

theorem seqPay_of_keepsPay {s t : State} (h : KeepsPay s t) : seqPay t = seqPay s := by
  obtain ⟨hlen, hcells⟩ := h
  rw [seqPay, seqPay, hlen]
  exact cells_congr 0 _ fun k _ => hcells (0 + k)

theorem outLen_eq_of_seqOut_eq {s t : State} (h : seqOut s = seqOut t) : s.outLen = t.outLen :=
  BitVec.eq_of_toNat_eq (by rw [← seqOut_length, h, seqOut_length])

/-- Settles O36: `BITS2B` finds the payload's bits, and they make the payload's bytes (R101). -/
theorem bits2bAfterB2bitsReturnsPayload : Obligations.Bits2bAfterB2bitsReturnsPayload := by
  intro s h
  obtain ⟨-, hb2bits⟩ := b2bitsStoresPayloadBits
  obtain ⟨-, hbits2b⟩ := bits2bStoresWholeChunks
  obtain ⟨t, ht, hbit, -, -, -, hpayT, -⟩ := hb2bits s h
  obtain ⟨u, hu, hout, -, -, ⟨hcode, -⟩, hpayU, -⟩ := hbits2b t
  have hsame : seqOut u = seqPay s := by rw [hout, hbit, bitsToBytes_bytesToBits]
  have hpay : seqPay u = seqPay s := (seqPay_of_keepsPay hpayU).trans (seqPay_of_keepsPay hpayT)
  have hlen : u.outLen = u.payLen :=
    BitVec.eq_of_toNat_eq (by rw [← seqOut_length, ← seqPay_length, hsame, hpay])
  exact ⟨t, u, ht, hu, hsame, hsame.trans hpay.symm, hlen, hcode⟩

/-- Settles O37: `BITS2I` finds the bits of `INT`, and they make the same number (R102). -/
theorem bits2iAfterI2bitsReturnsInteger : Obligations.Bits2iAfterI2bitsReturnsInteger := by
  intro s
  obtain ⟨-, hi2bits⟩ := i2bitsStoresSixteenBits
  obtain ⟨-, hbits2i⟩ := bits2iReadsOrRefuses
  obtain ⟨t, ht, hbit, hlen, -⟩ := hi2bits s
  obtain ⟨hread, -⟩ := hbits2i t
  obtain ⟨u, hu, hint, -, ⟨hcode, -⟩, -⟩ := hread hlen.ge
  rw [hbit, bitsToInt_intToBits] at hint
  exact ⟨t, u, ht, hu, (Option.some.inj hint).symm, hcode⟩

/-- The header of a carrier that can hold one is the number its first 16 parities state (R113, R135). -/
theorem carrierHeader_eq {s : State} (h : 16 ≤ s.carLen.toNat) :
    carrierHeader s = bitsToInt (lsbOf (seqCar s)) := by
  rw [carrierHeader, if_neg (Nat.not_lt.mpr h), carSlice_eq_take_drop 0 16 s (by omega), List.drop_zero,
    lsbOf_take, bitsToInt_take]

/-- `EXTRACT.RAW` of the whole carrier (R113, R131). -/
theorem exec_extractRaw_of_knownLen_eq {s : State} (hklv : s.klv = true) (hknown : s.knownLen = s.carLen) :
    exec .extractRaw s = .next (complete (storeOut (bitsToBytes (lsbOf (seqCar s))) s)) := by
  rcases extractKnown_cases s with ⟨hfalse, -⟩ | ⟨-, hlt, -⟩ | ⟨-, -, h⟩
  · exact absurd (hfalse.symm.trans hklv) Bool.false_ne_true
  · exact absurd (hknown ▸ hlt) (lt_irrefl _)
  · rw [hknown] at h
    exact congrArg _ h

/-- Settles O38: `LSBOF` leaves in `BIT` the parities from which the extractions read their header and
their bytes. -/
theorem codecCommandsComposeIntoFramer : Obligations.CodecCommandsComposeIntoFramer := by
  obtain ⟨-, hlsbof⟩ := lsbofStoresParities
  constructor
  · intro s h
    obtain ⟨-, hbits2i⟩ := bits2iReadsOrRefuses
    obtain ⟨t, ht, hbit, hlen, -⟩ := hlsbof s
    obtain ⟨hread, -⟩ := hbits2i t
    obtain ⟨u, hu, hint, -, ⟨hcode, -⟩, -⟩ := hread (hlen ▸ h)
    exact ⟨t, u, ht, hu, by rw [carrierHeader_eq h, ← hbit, hint], hcode⟩
  · intro s hklv hknown
    obtain ⟨-, hbits2b⟩ := bits2bStoresWholeChunks
    obtain ⟨t, ht, hbit, -⟩ := hlsbof s
    obtain ⟨u, hu, hout, -, -, ⟨hcode, -⟩, -⟩ := hbits2b t
    have hv := exec_extractRaw_of_knownLen_eq hklv hknown
    have hbytes : (bitsToBytes (lsbOf (seqCar s))).length = s.carLen.toNat / 8 := by
      rw [bitsToBytes_length, lsbOf_seqCar_length]
    obtain ⟨hvout, -⟩ :=
      complete_storeOut_spec s hbytes ((Nat.div_le_self _ 8).trans_lt s.carLen.isLt) rfl
    have hsame : seqOut u = _ := (hout.trans (congrArg bitsToBytes hbit)).trans hvout.symm
    exact ⟨t, u, _, ht, hu, hv, hsame, outLen_eq_of_seqOut_eq hsame, hcode, rfl⟩

end Sys2Proof.Machine

/-! Family 42_framer: the parity write (R122, R123), the frame (R121), what the four framer commands do and
leave alone (R129 to R137, R143), and one framer command after another (R139, R140, R145). -/

namespace Sys2Proof.Machine

/-! ### The parity write -/

/-- The parity of a byte after a parity write is the bit written (R123). -/
@[simp] theorem getLsbD_zero_setParity (b : Byte) (x : Bit) : (setParity b x).getLsbD 0 = x := by
  rw [getLsbD_zero_eq_decide_mod, setParity_toNat, Nat.mul_add_mod]
  cases x <;> rfl

/-- Of two parity writes of a byte the last one wins (R123). -/
theorem setParity_setParity (b : Byte) (x y : Bit) : setParity (setParity b x) y = setParity b y :=
  BitVec.eq_of_toNat_eq (by simp only [setParity_toNat _ y, setParity_toNat_div_two])

/-- Settles O29, from the parity write as arithmetic. -/
theorem parityWriteLaws : Obligations.ParityWriteLaws := by
  intro b x y
  have hvalue := setParity_toNat b x
  have hx := x.toNat_lt
  exact ⟨hvalue, by omega, by omega, by omega, by omega, setParity_setParity b x x, setParity_setParity b x y⟩

/-! ### The frame -/

theorem frameLength_false (n : Nat) : frameLength false n = 8 * n := Nat.zero_add _

theorem frameLength_true (n : Nat) : frameLength true n = 16 + 8 * n := rfl

theorem frameOf_false (p : List Byte) : frameOf false p = bytesToBits p := rfl

theorem frameOf_true (p : List Byte) :
    frameOf true p = intToBits (BitVec.ofNat 16 (8 * p.length)) ++ bytesToBits p := rfl

/-- Entry j of the header is bit 15 - j of the length it states (R121). -/
theorem intToBits_ofNat_getElem? (n : Nat) {j : Nat} (hj : j < 16) :
    (intToBits (BitVec.ofNat 16 n))[j]? = some (n.testBit (15 - j)) := by
  rw [intToBits_eq, bitsMsbFirst_getElem? _ hj, BitVec.getLsbD_ofNat,
    decide_eq_true (show 16 - 1 - j < 16 by omega), Bool.true_and]

/-- The first 16 entries of a frame with header are the header. -/
theorem frameOf_true_getElem?_of_lt (p : List Byte) {j : Nat} (hj : j < 16) :
    (frameOf true p)[j]? = some ((8 * p.length).testBit (15 - j)) :=
  (List.getElem?_append_left (by rwa [intToBits_length])).trans (intToBits_ofNat_getElem? _ hj)

theorem frameOf_true_drop (p : List Byte) : (frameOf true p).drop 16 = bytesToBits p :=
  List.drop_left' (intToBits_length _)

/-- Settles O30: 16 header entries, then the payload's. -/
theorem frameIsHeaderThenPayload : Obligations.FrameIsHeaderThenPayload := fun p =>
  ⟨rfl, fun _ => ⟨frameOf_length true p, fun _ => frameOf_true_getElem?_of_lt p, frameOf_true_drop p⟩⟩

/-- The header as bytes: the high byte of the length, then the low byte (R145). -/
theorem intToBits_ofNat_eq_bytesToBits (n : Nat) :
    intToBits (BitVec.ofNat 16 n) = bytesToBits [BitVec.ofNat 8 (n / 256), BitVec.ofNat 8 (n % 256)] := by
  refine List.ext_getElem? fun j => ?_
  by_cases hj : j < 16
  · rw [intToBits_ofNat_getElem? n hj, bytesToBits_getElem? [_, _] j hj]
    congr 1
    by_cases hhigh : j < 8
    · rw [Nat.div_eq_of_lt hhigh, Nat.mod_eq_of_lt hhigh, List.getD_cons_zero, BitVec.getLsbD_ofNat,
        decide_eq_true (show 7 - j < 8 by omega), Bool.true_and, show 15 - j = 7 - j + 8 by omega]
      exact (Nat.testBit_div_two_pow n (7 - j)).symm
    · have hdiv : j / 8 = 1 := by omega
      have hbit : 7 - j % 8 = 15 - j := by omega
      have hlow : 15 - j < 8 := by omega
      rw [hdiv, hbit, List.getD_cons_succ, List.getD_cons_zero, BitVec.getLsbD_ofNat,
        Nat.testBit_mod_two_pow n 8, decide_eq_true hlow, Bool.true_and, Bool.true_and]
  · rw [List.getElem?_eq_none (by rw [intToBits_length]; omega),
      List.getElem?_eq_none (by rw [bytesToBits_length, List.length_cons, List.length_singleton]; omega)]

/-! ### The embeds, end by end -/

section Embed
variable {useHeader : Bool} {s t : State} {r : Nat}

/-- The header check refuses first (R130, R159). -/
theorem embed_overflows (hn : 65535 < 8 * s.payLen.toNat) : embed true s = raise .headerOverflow s :=
  if_pos ⟨rfl, hn⟩

variable (hr : frameLength useHeader s.payLen.toNat = r)
  (hlimit : useHeader = true → 8 * s.payLen.toNat ≤ 65535)
include hr hlimit

/-- Then the capacity check does (R127). -/
theorem embed_tooLong (hc : s.carLen.toNat < r) :
    embed useHeader s = raise (.capacityError r s.carLen.toNat) s := by
  subst hr
  exact (if_neg fun ⟨hh, hn⟩ => Nat.not_lt.mpr (hlimit hh) hn).trans (if_pos hc)

/-- A frame that fits is embedded (R127). -/
theorem embed_fits (hc : r ≤ s.carLen.toNat) :
    embed useHeader s = complete (embedFrom 0 (frameOf useHeader (seqPay s)) s) := by
  subst hr
  exact (if_neg fun ⟨hh, hn⟩ => Nat.not_lt.mpr (hlimit hh) hn).trans (if_neg (Nat.not_lt.mpr hc))

/-- A refused embed: the report is exact when the frame's length fits `ERR_REQ` (R127). -/
theorem embed_tooLong_spec (hc : s.carLen.toNat < r) (hword : r < 4294967296) (ht : t = embed useHeader s) :
    Ended .capacityError r s.carLen.toNat t ∧ KeepsAllButReport s t := by
  rw [ht, embed_tooLong hr hlimit hc]
  exact ⟨⟨rfl, toNat_ofNat_of_lt hword, toNat_ofNat_of_lt s.carLen.isLt⟩, raise_eq _ s⟩

/-- A completed embed: the carrier cells, the report and the frame (R124, R127). -/
theorem embed_fits_spec (hc : r ≤ s.carLen.toNat) (ht : t = embed useHeader s) :
    Ended .ok 0 0 t ∧
      (∀ i, i < r → readCar i t = setParity (readCar i s) ((frameOf useHeader (seqPay s)).getD i false)) ∧
      (∀ i, r ≤ i → readCar i t = readCar i s) ∧ t.carLen = s.carLen ∧
      KeepsPay s t ∧ KeepsBit s t ∧ KeepsOut s t ∧ KeepsInt s t ∧ KeepsKnown s t ∧ KeepsHostSide s t := by
  have hlen : (frameOf useHeader (seqPay s)).length = r := by rw [frameOf_length, seqPay_length, hr]
  have hcell (i : Nat) : readCar i t = if i < r then
      setParity (readCar i s) ((frameOf useHeader (seqPay s)).getD i false) else readCar i s := by
    rw [ht, embed_fits hr hlimit hc, readCar_complete, readCar_embedFrom, hlen]
    simp
  rw [embed_fits hr hlimit hc, embedFrom_eq] at ht
  refine ⟨?_, fun i hi => (hcell i).trans (if_pos hi),
    fun i hi => (hcell i).trans (if_neg (Nat.not_lt.mpr hi)), ?_⟩
  all_goals subst ht
  · exact ⟨rfl, rfl, rfl⟩
  · exact ⟨rfl, ⟨rfl, fun _ => rfl⟩, ⟨rfl, fun _ => rfl⟩, ⟨rfl, fun _ => rfl⟩, rfl, ⟨rfl, rfl⟩,
      ⟨rfl, rfl, rfl, rfl⟩⟩

end Embed

/-- Settles O39: the two ends of an embed without header. -/
theorem embedRawWritesPayloadParities : Obligations.EmbedRawWritesPayloadParities := by
  refine ⟨decode_encode .embedRaw, fun s h => ?_⟩
  have hr := frameLength_false s.payLen.toNat
  exact ⟨fun hc => ⟨_, rfl, embed_fits_spec hr nofun hc rfl⟩,
    fun hc => ⟨_, rfl, embed_tooLong_spec hr nofun hc (eight_mul_payLen_lt h) rfl⟩⟩

/-- Settles O40: the three ends of an embed with header; the frame bit of a cell is one of the header's or one
of the payload's. -/
theorem embedHdrWritesFrameParities : Obligations.EmbedHdrWritesFrameParities := by
  refine ⟨decode_encode .embedHdr, fun s h => ?_⟩
  have hr := frameLength_true s.payLen.toNat
  refine ⟨fun hn hc => ?_, fun hn hc => ?_, fun hn => ?_⟩
  · obtain ⟨hend, hcells, hrest⟩ := embed_fits_spec hr (fun _ => by omega) hc rfl
    refine ⟨_, rfl, hend, fun i hi => ?_, fun i hi => ?_, hrest⟩
    · rw [hcells i (by omega), List.getD_eq_getElem?_getD, frameOf_true_getElem?_of_lt _ hi, seqPay_length,
        Option.getD_some]
    · rw [hcells (16 + i) (by omega), ← frameOf_true_drop, List.getD_eq_getElem?_getD,
        List.getD_eq_getElem?_getD, List.getElem?_drop]
  · exact ⟨_, rfl, embed_tooLong_spec hr (fun _ => by omega) hc (by omega) rfl⟩
  · refine ⟨_, rfl, ?_⟩
    rw [embed_overflows (by omega)]
    exact ⟨⟨rfl, rfl, rfl⟩, raise_eq _ s⟩

/-- Settles O45: the boundary points of the two embeds' ends. -/
theorem embedBoundaries : Obligations.EmbedBoundaries := by
  intro s h
  obtain ⟨-, hraw⟩ := embedRawWritesPayloadParities
  obtain ⟨-, hhdr⟩ := embedHdrWritesFrameParities
  obtain ⟨hrawFits, hrawShort⟩ := hraw s h
  obtain ⟨hhdrFits, hhdrShort, hoverflow⟩ := hhdr s h
  refine ⟨fun hc => ?_, fun hc => ?_, fun hn hc => ?_, fun hn hc => ?_, fun hn hc => ?_, fun hn => ?_⟩
  · obtain ⟨t, ht, ⟨hcode, -⟩, -⟩ := hrawFits hc.ge
    exact ⟨t, ht, hcode⟩
  · obtain ⟨t, ht, hend, -⟩ := hrawShort (by omega)
    exact ⟨t, ht, by rwa [← hc, Nat.add_sub_cancel, hc]⟩
  · obtain ⟨t, ht, ⟨hcode, -⟩, -⟩ := hhdrFits hn hc.ge
    exact ⟨t, ht, hcode⟩
  · obtain ⟨t, ht, ⟨hcode, -⟩, -⟩ := hhdrShort hn (by omega)
    exact ⟨t, ht, hcode⟩
  · obtain ⟨t, ht, ⟨hcode, -⟩, -⟩ := hhdrFits hn.le (by omega)
    exact ⟨t, ht, hcode⟩
  · obtain ⟨t, ht, ⟨hcode, -⟩, -⟩ := hoverflow hn.ge
    exact ⟨t, ht, hcode⟩

/-- A second embed takes the branch of the first and writes the same bits to the same cells (R140). -/
theorem embed_embed (useHeader : Bool) (s : State) :
    (embed useHeader (embed useHeader s)).code = (embed useHeader s).code ∧
      ∀ j, readCar j (embed useHeader (embed useHeader s)) = readCar j (embed useHeader s) := by
  rcases embed_cases useHeader s with ⟨rfl, hn, he⟩ | ⟨hlimit, hc, he⟩ | ⟨hlimit, hc, he⟩
  · rw [he, embed_overflows (by simpa using hn)]
    exact ⟨rfl, fun _ => rfl⟩
  · rw [he, embed_tooLong rfl (by simpa using hlimit) (by simpa using hc)]
    exact ⟨rfl, fun _ => rfl⟩
  · rw [he, embed_fits rfl (by simpa using hlimit) (by simpa using hc)]
    refine ⟨rfl, fun j => ?_⟩
    simp only [readCar_complete, readCar_embedFrom, seqPay_complete, seqPay_embedFrom]
    split
    · exact setParity_setParity _ _ _
    · rfl

/-- Settles O44, for the embed with either setting of the header. -/
theorem embedIsIdempotent : Obligations.EmbedIsIdempotent := by
  rintro s i (rfl | rfl)
  · exact ⟨_, _, rfl, rfl, embed_embed false s⟩
  · exact ⟨_, _, rfl, rfl, embed_embed true s⟩

/-! ### The extracts, end by end -/

section Extract
variable {s t : State} {x : Half}

/-- A completed extraction: the output, the report and the frame (R128). -/
theorem extractSlice_spec (start count : Nat) (hc : start + count ≤ s.carLen.toNat)
    (ht : t = extractSlice start count s) :
    Ended .ok 0 0 t ∧ seqOut t = bitsToBytes (lsbOf (((seqCar s).drop start).take count)) ∧
      t.outLen.toNat = count / 8 ∧ (∀ i, count / 8 ≤ i → readOut i t = readOut i s) ∧
      KeepsPay s t ∧ KeepsCar s t ∧ KeepsBit s t ∧ KeepsInt s t ∧ KeepsKnown s t ∧ KeepsHostSide s t := by
  have hword : count / 8 < 4294967296 := by
    have := s.carLen.isLt
    omega
  obtain ⟨hout, hlen, hbeyond, hend, hframe⟩ :=
    complete_storeOut_spec s (extractBytes_length start count s) hword ht
  rw [carSlice_eq_take_drop _ _ _ hc] at hout
  exact ⟨hend, hout, hlen, hbeyond, hframe⟩

theorem exec_extractRaw_absent (hklv : s.klv = false) :
    exec .extractRaw s = .next (raise .illegalOperation s) :=
  congrArg Host.Outcome.next (by simp [extractKnown, knownLength, hklv])

theorem exec_extractRaw_truncated (hklv : s.klv = true) (hc : s.carLen.toNat < s.knownLen.toNat) :
    exec .extractRaw s = .next (raise .truncatedCarrier s) :=
  congrArg Host.Outcome.next (by simp [extractKnown, knownLength, hklv, hc])

theorem exec_extractRaw_fits (hklv : s.klv = true) (hc : s.knownLen.toNat ≤ s.carLen.toNat) :
    exec .extractRaw s = .next (extractSlice 0 s.knownLen.toNat s) :=
  congrArg Host.Outcome.next (by simp [extractKnown, knownLength, hklv, Nat.not_lt.mpr hc])

theorem exec_extractHdr_noHeader (hc : s.carLen.toNat < 16) :
    exec .extractHdr s = .next (raise .truncatedCarrier s) :=
  congrArg Host.Outcome.next (by simp [extractHeader, carrierHeader, hc])

theorem exec_extractHdr_truncated (hx : carrierHeader s = some x) (hc : s.carLen.toNat < 16 + x.toNat) :
    exec .extractHdr s = .next (raise .truncatedCarrier s) :=
  congrArg Host.Outcome.next (by simp [extractHeader, hx, hc])

theorem exec_extractHdr_fits (hx : carrierHeader s = some x) (hc : 16 + x.toNat ≤ s.carLen.toNat) :
    exec .extractHdr s = .next (extractSlice 16 x.toNat s) :=
  congrArg Host.Outcome.next (by simp [extractHeader, hx, Nat.not_lt.mpr hc])

theorem lsbOf_seqCar_getElem? {j : Nat} (hj : j < s.carLen.toNat) :
    (lsbOf (seqCar s))[j]? = some ((readCar j s).getLsbD 0) := by
  rw [lsbOf, List.getElem?_map, seqCar_getElem? j s hj, Option.map_some]

/-- The header as the number the first 16 parities spell (R134). -/
theorem exists_carrierHeader_eq_sum (hc : 16 ≤ s.carLen.toNat) :
    ∃ x, carrierHeader s = some x ∧
      x.toNat = ∑ j ∈ Finset.range 16, (readCar j s).toNat % 2 * 2 ^ (15 - j) := by
  obtain ⟨-, hread⟩ := bitsToIntReadsFirstSixteen (lsbOf (seqCar s))
  obtain ⟨x, hx, hsum⟩ := hread (by rwa [lsbOf_seqCar_length])
  refine ⟨x, (carrierHeader_eq hc).trans hx, hsum.trans (Finset.sum_congr rfl fun j hj => ?_)⟩
  have hj : j < s.carLen.toNat := (Finset.mem_range.mp hj).trans_le hc
  rw [List.getD_eq_getElem?_getD, lsbOf_seqCar_getElem? hj, Option.getD_some, getLsbD_zero_toNat]

end Extract

/-- Settles O41: the three ends of an extraction of a known length. -/
theorem extractRawReadsKnownLength : Obligations.ExtractRawReadsKnownLength := by
  refine ⟨decode_encode .extractRaw, fun s => ⟨fun hklv hc => ⟨_, exec_extractRaw_fits hklv hc, ?_⟩,
    fun hklv => ⟨_, exec_extractRaw_absent hklv, ⟨rfl, rfl, rfl⟩, rfl⟩,
    fun hklv hc => ⟨_, exec_extractRaw_truncated hklv hc, ⟨rfl, rfl, rfl⟩, rfl⟩⟩⟩
  exact extractSlice_spec 0 _ (by omega) rfl

/-- Settles O42: the ends of an extraction of the length that the header states. -/
theorem extractHdrReadsHeaderThenPayload : Obligations.ExtractHdrReadsHeaderThenPayload := by
  refine ⟨decode_encode .extractHdr, fun s => ⟨fun hc => ?_, fun hc n hn => ?_⟩⟩
  · exact ⟨_, exec_extractHdr_noHeader hc, ⟨rfl, rfl, rfl⟩, rfl⟩
  · obtain ⟨x, hx, hsum⟩ := exists_carrierHeader_eq_sum hc
    obtain rfl : n = x.toNat := hn.trans hsum.symm
    exact ⟨fun hfit => ⟨_, exec_extractHdr_fits hx hfit, extractSlice_spec _ _ hfit rfl⟩,
      fun hlong => ⟨_, exec_extractHdr_truncated hx hlong, ⟨rfl, rfl, rfl⟩, rfl⟩⟩

/-! ### What the framer commands leave alone -/

/-- Everything a framer command can do: an error report, a completed embed pass by an embed, or a completed
store into `OUT` by an extract. -/
theorem exec_framer_cases {i : Instr} (s : State)
    (hi : i = .embedRaw ∨ i = .embedHdr ∨ i = .extractRaw ∨ i = .extractHdr) :
    (∃ e, exec i s = .next (raise e s)) ∨
    ((i = .embedRaw ∨ i = .embedHdr) ∧ ∃ frame, exec i s = .next (complete (embedFrom 0 frame s))) ∨
    ((i = .extractRaw ∨ i = .extractHdr) ∧ ∃ bytes, exec i s = .next (complete (storeOut bytes s))) := by
  rcases exec_cases i s with h | ⟨_, -, hb⟩ | ⟨bytes, he, hb⟩ | ⟨_, rfl, -⟩ | ⟨h, rfl, -, he⟩
  · exact .inl h
  · rcases hb with ⟨rfl, -⟩ | ⟨rfl, -⟩ | ⟨rfl, -⟩ <;> simp at hi
  · refine .inr (.inr ⟨?_, bytes, he⟩)
    rcases hb with ⟨rfl, -⟩ | ⟨hextract, -⟩
    · simp at hi
    · exact hextract
  · simp at hi
  · exact .inr (.inl ⟨by cases h <;> simp, _, he⟩)

/-- Settles O55: a report, an embed pass and a store into `OUT` each touch their own fields only. -/
theorem framerLeavesCodecStateAlone : Obligations.FramerLeavesCodecStateAlone := by
  intro i s hi
  rcases exec_framer_cases s hi with ⟨e, he⟩ | ⟨hembed, frame, he⟩ | ⟨hextract, bytes, he⟩
  · rw [raise_eq] at he
    exact ⟨_, he, ⟨rfl, fun _ => rfl⟩, rfl, ⟨rfl, fun _ => rfl⟩, rfl, ⟨rfl, rfl⟩,
      fun _ => ⟨rfl, fun _ => rfl⟩, fun _ _ => rfl⟩
  · rw [embedFrom_eq] at he
    exact ⟨_, he, ⟨rfl, fun _ => rfl⟩, rfl, ⟨rfl, fun _ => rfl⟩, rfl, ⟨rfl, rfl⟩,
      fun _ => ⟨rfl, fun _ => rfl⟩, fun hextract => by rcases hembed with rfl | rfl <;> simp at hextract⟩
  · exact ⟨_, he, ⟨rfl, fun _ => rfl⟩, rfl, ⟨rfl, fun _ => rfl⟩, rfl, ⟨rfl, rfl⟩,
      fun hembed => by rcases hextract with rfl | rfl <;> simp at hembed, fun _ _ => rfl⟩

/-! ### An embed, then an extract -/

/-- Bytes of whole chunks, then whatever follows (R97, R101). -/
theorem bitsToBytes_bytesToBits_append (bytes : List Byte) (bits : List Bit) :
    bitsToBytes (bytesToBits bytes ++ bits) = bytes ++ bitsToBytes bits := by
  induction bytes with
  | nil => rfl
  | cons b bytes ih =>
    rw [bytesToBits_cons, List.append_assoc, bitsToBytes_append (byteBits_length b), byteBits_eq,
      ofNat_msbFirst_bitsMsbFirst, ih, List.cons_append]

/-- The first k bits make the first floor(k / 8) bytes (R97). -/
theorem bitsToBytes_take (bits : List Bit) (k : Nat) :
    bitsToBytes (bits.take k) = (bitsToBytes bits).take (k / 8) := by
  have hlen : (bitsToBytes (bits.take k)).length = min k bits.length / 8 := by
    rw [bitsToBytes_length, List.length_take]
  refine List.ext_getElem? fun j => ?_
  by_cases hj : j < min k bits.length / 8
  · rw [List.getElem?_take_of_lt (by omega), bitsToBytes_getElem? bits j (by omega),
      bitsToBytes_getElem? _ j (by rwa [List.length_take]), List.drop_take, List.take_take,
      Nat.min_eq_left (by omega)]
  · rw [List.getElem?_eq_none (by omega), List.getElem?_eq_none]
    rw [List.length_take, bitsToBytes_length]
    omega

section RoundTrip
variable {useHeader : Bool} {s : State} {r : Nat} (hr : frameLength useHeader s.payLen.toNat = r)
  (hlimit : useHeader = true → 8 * s.payLen.toNat ≤ 65535) (hc : r ≤ s.carLen.toNat)
include hr hlimit hc

theorem embed_fits_carLen : (embed useHeader s).carLen = s.carLen := by
  rw [embed_fits hr hlimit hc, complete_carLen, embedFrom_carLen]

theorem embed_fits_seqPay : seqPay (embed useHeader s) = seqPay s := by
  rw [embed_fits hr hlimit hc, seqPay_complete, seqPay_embedFrom]

/-- The carrier's parities after an embed that fits: the frame, then the parities that were there. -/
theorem lsbOf_seqCar_embed :
    lsbOf (seqCar (embed useHeader s)) = frameOf useHeader (seqPay s) ++ (lsbOf (seqCar s)).drop r := by
  have hlen : (frameOf useHeader (seqPay s)).length = r := by rw [frameOf_length, seqPay_length, hr]
  have hcar := embed_fits_carLen hr hlimit hc
  obtain ⟨-, hframe, hbeyond, -⟩ := embed_fits_spec hr hlimit hc rfl
  refine List.ext_getElem? fun j => ?_
  by_cases hj : j < s.carLen.toNat
  · rw [lsbOf_seqCar_getElem? (by rwa [hcar])]
    by_cases hjr : j < r
    · rw [hframe j hjr, getLsbD_zero_setParity, List.getElem?_append_left (by omega),
        List.getD_eq_getElem _ _ (by omega), List.getElem?_eq_getElem]
    · rw [hbeyond j (Nat.not_lt.mp hjr), List.getElem?_append_right (by omega), List.getElem?_drop, hlen,
        Nat.add_sub_cancel' (Nat.not_lt.mp hjr), lsbOf_seqCar_getElem? hj]
  · rw [List.getElem?_eq_none (by rw [lsbOf_seqCar_length, hcar]; omega),
      List.getElem?_eq_none (by rw [List.length_append, List.length_drop, lsbOf_seqCar_length]; omega)]

/-- After an embed that fits and a host write of a length within the carrier, `EXTRACT.RAW` reads that many
of those parities and leaves the payload (R131). -/
theorem extractRaw_after_embed {k : Word} (hk : k.toNat ≤ s.carLen.toNat) :
    ∃ u, exec .extractRaw (writeReg .knownLen k (embed useHeader s)) = .next u ∧ u.code = .ok ∧
      seqOut u = bitsToBytes ((frameOf useHeader (seqPay s) ++ (lsbOf (seqCar s)).drop r).take k.toNat) ∧
      seqPay u = seqPay s := by
  obtain ⟨-, hextract⟩ := extractRawReadsKnownLength
  obtain ⟨hfits, -⟩ := hextract (writeReg .knownLen k (embed useHeader s))
  have hcar : k.toNat ≤ (embed useHeader s).carLen.toNat := by rwa [embed_fits_carLen hr hlimit hc]
  obtain ⟨u, hu, ⟨hcode, -⟩, hout, -, -, hpay, -⟩ := hfits rfl hcar
  refine ⟨u, hu, hcode, ?_, (seqPay_of_keepsPay hpay).trans (embed_fits_seqPay hr hlimit hc)⟩
  rw [hout, lsbOf_take, ← lsbOf_seqCar_embed hr hlimit hc]
  rfl

end RoundTrip

/-- `EMBED.RAW`, then `EXTRACT.RAW` of k bits: payload bytes, then bytes of the untouched parities (R139). -/
theorem extractRaw_after_embedRaw {s : State} {k : Word} (hc : 8 * s.payLen.toNat ≤ s.carLen.toNat)
    (hk : k.toNat ≤ s.carLen.toNat) :
    ∃ u, exec .extractRaw (writeReg .knownLen k (embed false s)) = .next u ∧ u.code = .ok ∧
      seqOut u = (seqPay s).take (min k.toNat (8 * s.payLen.toNat) / 8) ++
        bitsToBytes (lsbOf (((seqCar s).take k.toNat).drop (8 * s.payLen.toNat))) ∧
      seqPay u = seqPay s := by
  obtain ⟨u, hu, hcode, hout, hpay⟩ := extractRaw_after_embed (frameLength_false _) nofun hc hk
  have hrest : lsbOf (((seqCar s).take k.toNat).drop (8 * s.payLen.toNat)) =
      ((lsbOf (seqCar s)).drop (8 * s.payLen.toNat)).take (k.toNat - 8 * s.payLen.toNat) := by
    rw [← List.drop_take, ← lsbOf_take]
    exact List.map_drop
  have hbytes : (k.toNat - 8 * s.payLen.toNat) / 8 = k.toNat / 8 - (seqPay s).length := by
    rw [seqPay_length]; omega
  have hpayload : (seqPay s).take (min k.toNat (8 * s.payLen.toNat) / 8) = (seqPay s).take (k.toNat / 8) := by
    rw [List.take_eq_take_iff, seqPay_length]; omega
  refine ⟨u, hu, hcode, ?_, hpay⟩
  rw [hout, bitsToBytes_take, frameOf_false, bitsToBytes_bytesToBits_append, List.take_append, hrest,
    bitsToBytes_take, hbytes, hpayload]

/-- `EMBED.HDR`, then `EXTRACT.HDR`: the header states the payload's bits, and they follow it (R139). -/
theorem extractHdr_after_embedHdr {s : State} (hn : s.payLen.toNat ≤ 8191)
    (hc : 16 + 8 * s.payLen.toNat ≤ s.carLen.toNat) :
    ∃ u, exec .extractHdr (embed true s) = .next u ∧ u.code = .ok ∧ seqOut u = seqPay s ∧
      seqPay u = seqPay s := by
  have hlimit : true = true → 8 * s.payLen.toNat ≤ 65535 := fun _ => by omega
  have hr := frameLength_true s.payLen.toNat
  have hcar := embed_fits_carLen hr hlimit hc
  have hbits := lsbOf_seqCar_embed hr hlimit hc
  have hheader : carrierHeader (embed true s) = some (BitVec.ofNat 16 (8 * s.payLen.toNat)) := by
    rw [carrierHeader_eq (by rw [hcar]; omega), hbits, ← bitsToInt_take, frameOf_true, List.append_assoc,
      List.take_left' (intToBits_length _), bitsToInt_intToBits, seqPay_length]
  have hvalue : (BitVec.ofNat 16 (8 * s.payLen.toNat)).toNat = 8 * s.payLen.toNat := by
    rw [BitVec.toNat_ofNat]; omega
  have hfit : 16 + (BitVec.ofNat 16 (8 * s.payLen.toNat)).toNat ≤ (embed true s).carLen.toNat := by
    rwa [hvalue, hcar]
  obtain ⟨⟨hcode, -⟩, hout, -, -, hpay, -⟩ := extractSlice_spec _ _ hfit rfl
  refine ⟨_, exec_extractHdr_fits hheader hfit, hcode, ?_,
    (seqPay_of_keepsPay hpay).trans (embed_fits_seqPay hr hlimit hc)⟩
  have hpayload :
      lsbOf (((seqCar (embed true s)).drop 16).take (8 * s.payLen.toNat)) = bytesToBits (seqPay s) := by
    have hlen : 16 ≤ (frameOf true (seqPay s)).length := by rw [frameOf_length, frameLength_true]; omega
    rw [lsbOf_take, lsbOf, List.map_drop, ← lsbOf, hbits, List.drop_append_of_le_length hlen,
      frameOf_true_drop, List.take_left' (bytesToBits_seqPay_length s)]
  rw [hout, hvalue, hpayload, bitsToBytes_bytesToBits]

/-- Settles O43: (a) is the last sentence for a known length of the payload's bits, where no untouched parity
is read. -/
theorem embedThenExtractReturnsPayload : Obligations.EmbedThenExtractReturnsPayload := by
  refine ⟨fun s k _ hc hk => ?_, fun s _ hn hc => ?_, fun s k _ hc hk => ?_⟩
  · obtain ⟨u, hu, hcode, hout, hpay⟩ := extractRaw_after_embedRaw hc (hk.trans_le hc)
    have hsame : seqOut u = seqPay s := by
      have hnone : ((seqCar s).take (8 * s.payLen.toNat)).drop (8 * s.payLen.toNat) = [] :=
        List.drop_eq_nil_of_le (List.length_take_le _ _)
      rw [hout, hk, hnone, Nat.min_self, Nat.mul_div_cancel_left _ (by decide), ← seqPay_length,
        List.take_length]
      exact List.append_nil _
    exact ⟨_, u, rfl, hu, hcode, hsame, hsame.trans hpay.symm⟩
  · obtain ⟨u, hu, hcode, hout, hpay⟩ := extractHdr_after_embedHdr hn hc
    exact ⟨_, u, rfl, hu, hcode, hout, hout.trans hpay.symm⟩
  · obtain ⟨u, hu, hcode, hout, -⟩ := extractRaw_after_embedRaw hc hk
    exact ⟨_, u, rfl, hu, hcode, hout⟩

/-- Settles O46: the header is the bits of two bytes, so the whole frame is the bits of the two bytes and the
payload. -/
theorem rawExtractionOfHeaderFrame : Obligations.RawExtractionOfHeaderFrame := by
  intro s k _ hn hc hk
  have hr := frameLength_true s.payLen.toNat
  obtain ⟨u, hu, hcode, hout, -⟩ := extractRaw_after_embed hr (fun _ => by omega) hc (hk.trans_le hc)
  have hlen : (frameOf true (seqPay s)).length = k.toNat := by rw [frameOf_length, seqPay_length, hr, hk]
  have hframe : frameOf true (seqPay s) = bytesToBits (BitVec.ofNat 8 (8 * s.payLen.toNat / 256) ::
      BitVec.ofNat 8 (8 * s.payLen.toNat % 256) :: seqPay s) := by
    rw [frameOf_true, intToBits_ofNat_eq_bytesToBits, seqPay_length]
    exact List.flatMap_append.symm
  refine ⟨_, u, rfl, hu, hcode, ?_⟩
  rw [hout, List.take_left' hlen, hframe, bitsToBytes_bytesToBits]

end Sys2Proof.Machine

/-! Family 60_exceptions: the ends a command can have, what each reports (R150 to R158), and that every action
has an end (R160, R189). -/

namespace Sys2Proof.Machine

/-! ### Every action completes -/

theorem exists_issue_eq_next (w : Word) (s : State) : ∃ t, issue w s = .next t := by
  rcases issue_cases w s with ⟨i, -, hi⟩ | ⟨e, -, he⟩
  · rw [hi]
    exact exists_exec_eq_next i s
  · exact ⟨_, he⟩

theorem exists_perform_eq_next (a : HostAction) (s : State) : ∃ t, perform a s = .next t := by
  cases a with
  | write space i w =>
    by_cases hcmd : space = .reg ∧ i = 0
    · obtain ⟨rfl, rfl⟩ := hcmd
      exact exists_issue_eq_next w s
    · exact ⟨_, perform_write space i w s hcmd⟩
  | read space i => exact ⟨_, perform_read space i s⟩
  | reset => exact ⟨_, perform_reset s⟩

/-- Settles O8: an idle step leaves the state, and every action of a script completes. -/
theorem everyStepCompletes : Obligations.EveryStepCompletes := by
  intro s
  rcases hs : s.script with _ | ⟨a, rest⟩
  · exact ⟨s, step_nil s hs⟩
  · rw [step_cons a rest s hs]
    exact exists_perform_eq_next a _

/-! ### The ends of a command -/

/-- Settles O11: the numbers are those `codeNumber` gives. -/
theorem resultCodeNumbers : Obligations.ResultCodeNumbers := ⟨rfl, rfl, rfl, rfl, rfl⟩

/-- Everything a command can report (R150, R151): a completed command, an error of the command's own that
records nothing, or a frame longer than the carrier. The last two leave everything but the report. -/
theorem exec_report_cases (i : Instr) (s : State) :
    (∃ u, exec i s = .next (complete u)) ∨
    (∃ c, (c ∈ allowedCodes i ∧ c ≠ .ok ∧ c ≠ .capacityError) ∧ exec i s = .next (report c 0 0 s)) ∨
    (∃ useHeader, i = (if useHeader then .embedHdr else .embedRaw) ∧
      s.carLen.toNat < frameLength useHeader s.payLen.toNat ∧
      exec i s = .next (raise (.capacityError (frameLength useHeader s.payLen.toNat) s.carLen.toNat) s)) := by
  cases i with
  | embedRaw =>
    rcases embed_cases false s with ⟨hfalse, -⟩ | ⟨-, hc, h⟩ | ⟨-, -, h⟩
    · cases hfalse
    · exact .inr (.inr ⟨false, rfl, hc, congrArg _ h⟩)
    · exact .inl ⟨_, congrArg _ h⟩
  | embedHdr =>
    rcases embed_cases true s with ⟨-, -, h⟩ | ⟨-, hc, h⟩ | ⟨-, -, h⟩
    · exact .inr (.inl ⟨.headerOverflow, by decide, congrArg _ h⟩)
    · exact .inr (.inr ⟨true, rfl, hc, congrArg _ h⟩)
    · exact .inl ⟨_, congrArg _ h⟩
  | extractRaw =>
    rcases extractKnown_cases s with ⟨-, h⟩ | ⟨-, -, h⟩ | ⟨-, -, h⟩
    · exact .inr (.inl ⟨.illegalOperation, by decide, congrArg _ h⟩)
    · exact .inr (.inl ⟨.truncatedCarrier, by decide, congrArg _ h⟩)
    · exact .inl ⟨_, congrArg _ h⟩
  | extractHdr =>
    rcases extractHeader_cases s with ⟨-, h⟩ | ⟨x, -, -, -, h⟩ | ⟨x, -, -, -, h⟩
    · exact .inr (.inl ⟨.truncatedCarrier, by decide, congrArg _ h⟩)
    · exact .inr (.inl ⟨.truncatedCarrier, by decide, congrArg _ h⟩)
    · exact .inl ⟨_, congrArg _ h⟩
  | bits2i =>
    rcases execBits2i_cases s with ⟨-, h⟩ | ⟨-, x, -, h⟩
    · exact .inr (.inl ⟨.illegalOperation, by decide, h⟩)
    · exact .inl ⟨_, h⟩
  | b2bits | bits2b | i2bits | lsbof => exact .inl ⟨_, rfl⟩

/-- Settles O49: a command that did not complete left the state before but for the report. -/
theorem errorsArePreciseAndTotal : Obligations.ErrorsArePreciseAndTotal := by
  intro i s
  rcases exec_report_cases i s with ⟨u, h⟩ | ⟨c, -, h⟩ | ⟨useHeader, -, -, h⟩
  · exact ⟨_, h, fun hne => absurd (complete_code u) hne⟩
  · exact ⟨_, h, fun _ => rfl⟩
  · exact ⟨_, h, fun _ => raise_eq _ s⟩

/-! ### What the end records -/

/-- A frame's length fits `ERR_REQ` (R9, R88). -/
theorem frameLength_lt (useHeader : Bool) {s : State} (h : s.Inv) :
    frameLength useHeader s.payLen.toNat < 4294967296 := by
  obtain ⟨⟨-, -, -, hpayMax⟩, ⟨hpayLen, -⟩, -⟩ := h
  cases useHeader
  · rw [frameLength_false]; omega
  · rw [frameLength_true]; omega

/-- Settles O51: only the end of `CapacityError` records values, and `ERR_REQ` holds the frame length exactly
because the invariant holds. -/
theorem onlyCapacityErrorRecordsValues : Obligations.OnlyCapacityErrorRecordsValues := by
  intro i s t hinv ht
  rcases exec_report_cases i s with ⟨u, h⟩ | ⟨c, ⟨-, -, hc⟩, h⟩ | ⟨useHeader, rfl, hlt, h⟩ <;>
    rw [h] at ht <;> cases ht
  · exact ⟨nofun, fun _ => ⟨rfl, rfl⟩⟩
  · exact ⟨fun hcode => absurd hcode hc, fun _ => ⟨rfl, rfl⟩⟩
  · refine ⟨fun _ => ?_, fun hne => absurd rfl hne⟩
    have hreq := toNat_ofNat_of_lt (frameLength_lt useHeader hinv)
    have havail : BitVec.ofNat 32 s.carLen.toNat = s.carLen := by simp
    refine ⟨hreq.trans ?_, havail, ?_⟩
    · cases useHeader <;> rfl
    · exact (congrArg BitVec.toNat havail).trans_lt (hlt.trans_eq hreq.symm)

/-! ### The table of R156 -/

theorem exec_code_mem_allowedCodes {i : Instr} {s t : State} (ht : exec i s = .next t) :
    t.code ∈ allowedCodes i := by
  rcases exec_report_cases i s with ⟨u, h⟩ | ⟨c, ⟨hc, -⟩, h⟩ | ⟨useHeader, rfl, -, h⟩ <;>
    rw [h] at ht <;> cases ht
  · cases i <;> exact List.mem_cons_self
  · exact hc
  · cases useHeader <;> exact List.mem_cons_of_mem _ List.mem_cons_self

/-- Some state that meets the invariant makes the command end with the code. -/
abbrev CanEnd (i : Instr) (c : ResultCode) : Prop := ∃ s t : State, s.Inv ∧ exec i s = .next t ∧ t.code = c

/-- A state on which every command completes: no payload, the known length 0, sixteen entries of `BIT`, and a
carrier of sixteen bytes whose header states 0 bits. -/
def completing : State :=
  { State.reset with
    sizes := { carMax := 16, payMax := 1 }, klv := true, carLen := 16, bitLen := 16
    car := (List.range 16).map fun i => (i, 0) }

/-- A state whose carrier is empty, with a payload of one byte more than a header can state and a known length
of 1. -/
def overlong : State :=
  { State.reset with
    sizes := { carMax := 1, payMax := 8192 }, payLen := 8192, klv := true, knownLen := 1 }

theorem completing_inv : completing.Inv := by decide

theorem overlong_inv : overlong.Inv := by decide

/-- Every command can end with `OK`. -/
theorem canEnd_ok (i : Instr) : CanEnd i .ok := by
  cases i <;> exact ⟨completing, _, completing_inv, rfl, by decide⟩

/-- Every entry of the table is met. Straight after reset there is no room for a header, no header to read, no
known length and no bit; on `overlong` the payload and the known length are beyond the carrier, and the payload
is beyond what a header can state. -/
theorem canEnd_of_mem_allowedCodes {i : Instr} {c : ResultCode} (hc : c ∈ allowedCodes i) : CanEnd i c := by
  cases i <;> simp only [allowedCodes, List.mem_cons, List.not_mem_nil, or_false] at hc
  case embedRaw =>
    rcases hc with rfl | rfl
    · exact canEnd_ok _
    · exact ⟨overlong, _, overlong_inv, rfl, by decide⟩
  case embedHdr =>
    rcases hc with rfl | rfl | rfl
    · exact canEnd_ok _
    · exact ⟨State.reset, _, resetMeetsInvariant, rfl, by decide⟩
    · exact ⟨overlong, _, overlong_inv, rfl, by decide⟩
  case extractRaw =>
    rcases hc with rfl | rfl | rfl
    · exact canEnd_ok _
    · exact ⟨overlong, _, overlong_inv, rfl, by decide⟩
    · exact ⟨State.reset, _, resetMeetsInvariant, rfl, by decide⟩
  case extractHdr | bits2i =>
    rcases hc with rfl | rfl
    · exact canEnd_ok _
    · exact ⟨State.reset, _, resetMeetsInvariant, rfl, by decide⟩
  all_goals
    subst hc
    exact canEnd_ok _

/-- `EXTRACT.RAW` is refused for an absent known length only (R132). -/
theorem exec_extractRaw_code_eq_illegalOperation_iff {s t : State} (ht : exec .extractRaw s = .next t) :
    t.code = .illegalOperation ↔ s.klv = false := by
  cases ht
  rcases extractKnown_cases s with ⟨hklv, h⟩ | ⟨hklv, -, h⟩ | ⟨hklv, -, h⟩ <;> rw [h, hklv]
  · exact iff_of_true rfl rfl
  · exact iff_of_false nofun nofun
  · exact iff_of_false nofun nofun

/-- `BITS2I` is refused for fewer than sixteen bits only (R109). -/
theorem exec_bits2i_code_eq_illegalOperation_iff {s t : State} (ht : exec .bits2i s = .next t) :
    t.code = .illegalOperation ↔ s.bitLen.toNat < 16 := by
  rcases execBits2i_cases s with ⟨hlt, h⟩ | ⟨hge, x, -, h⟩ <;> cases h.symm.trans ht
  · exact iff_of_true rfl hlt
  · exact iff_of_false nofun (Nat.not_lt.mpr hge)

/-- Settles O50: the table's yes entries each by a state, its no entries by the ends of a command. -/
theorem resultCodeTable : Obligations.ResultCodeTable := by
  refine ⟨fun i c => ⟨?_, canEnd_of_mem_allowedCodes⟩,
    fun _ _ => exec_extractRaw_code_eq_illegalOperation_iff,
    fun _ _ => exec_bits2i_code_eq_illegalOperation_iff,
    fun _ _ s he => ⟨_, issue_of_decode_error he s, rfl⟩⟩
  rintro ⟨s, t, -, ht, rfl⟩
  exact exec_code_mem_allowedCodes ht

end Sys2Proof.Machine

/-! Family 70_reset_and_hazards: what the commands do straight after reset (R176), what no command changes
(R179), and how a run ends and goes wrong (R189). -/

namespace Sys2Proof.Machine

/-! ### What no command changes -/

/-- `PAY_LEN`, the cells of `PAY` and `KNOWN_LEN` belong to the host (R23, R27, R31). -/
theorem exec_payLen_pay_knownLen (i : Instr) {s t : State} (h : exec i s = .next t) :
    t.payLen = s.payLen ∧ t.pay = s.pay ∧ t.knownLen = s.knownLen := by
  rcases exec_cases i s with ⟨e, he⟩ | ⟨b, he, -⟩ | ⟨b, he, -⟩ | ⟨x, -, he⟩ | ⟨x, -, -, he⟩ <;>
    rw [he] at h <;> cases h <;> simp

/-- Settles O52, input by input; the cells of `PAY` read as before because no command changes the count of
resets, which picks the free values. -/
theorem commandsLeaveInputsAlone : Obligations.CommandsLeaveInputsAlone := by
  intro i s t h
  obtain ⟨hpayLen, hpay, hknown⟩ := exec_payLen_pay_knownLen i h
  have hhost := exec_keepsHostSide i s t h
  have ⟨_, hresets, _⟩ := hhost
  exact ⟨⟨hpayLen, readPay_congr hpay hresets⟩, exec_carLen i h, ⟨hknown, exec_klv i h⟩, hhost⟩

/-! ### How a run ends and goes wrong -/

/-- Any number of steps completes, and each took one action off the script (R160, R189). -/
theorem exists_runFor_eq_next (n : Nat) (s : State) :
    ∃ t, runFor n s = .next t ∧ t.script = s.script.drop n := by
  induction n generalizing s with
  | zero => exact ⟨s, rfl, rfl⟩
  | succ n ih =>
    obtain ⟨u, hu⟩ := everyStepCompletes s
    obtain ⟨t, ht, hscript⟩ := ih u
    refine ⟨t, (runFor_succ n s u hu).trans ht, ?_⟩
    rw [hscript, step_script s u hu, List.drop_tail]

/-- The action at index k of the script is a command that, in the state after k + 1 steps, has left a code
other than `OK` that is not among those expected of it (R189). -/
def UnexpectedEndAt (expects : List (List ResultCode)) (s : State) (k : Nat) : Prop :=
  ∃ (w : Word) (t : State), s.script[k]? = some (.write .reg 0 w) ∧ runFor (k + 1) s = .next t ∧
    t.code ≠ .ok ∧ t.code ∉ expects.getD k []

section UnexpectedEnd
variable {expects : List (List ResultCode)} {s t : State}

theorem not_unexpectedEndAt_of_script_nil (hs : s.script = []) (k : Nat) : ¬ UnexpectedEndAt expects s k := by
  rintro ⟨w, t, hk, -⟩
  simp [hs] at hk

/-- The first action of a script ends as its own step does. -/
theorem unexpectedEndAt_zero_iff {a : HostAction} {rest : List HostAction} (hs : s.script = a :: rest)
    (ht : step s = .next t) :
    UnexpectedEndAt expects s 0 ↔ endedUnexpectedly (expects.headD []) a t = true := by
  have hrun (u : State) : runFor (0 + 1) s = .next u ↔ t = u := by
    rw [runFor_succ 0 s t ht, runFor, Host.Outcome.next.injEq]
  rw [endedUnexpectedly_iff, List.headD_eq_head?_getD, List.head?_eq_getElem?, ← List.getD_eq_getElem?_getD]
  simp [UnexpectedEndAt, hs, hrun]

/-- Every later action ends as it does in the run from the state after the first step. -/
theorem unexpectedEndAt_succ_iff (ht : step s = .next t) (k : Nat) :
    UnexpectedEndAt expects s (k + 1) ↔ UnexpectedEndAt expects.tail t k := by
  simp [UnexpectedEndAt, runFor_succ _ s t ht, step_script s t ht, List.getD_eq_getElem?_getD]

end UnexpectedEnd

/-- The other half of `wentWrong_cons`: the run of an empty script has not gone wrong. -/
theorem wentWrong_nil (expects : List (List ResultCode)) (s : State) (hs : s.script = []) :
    wentWrong expects s = false := by
  rw [wentWrong, hs]; rfl

/-- A run has gone wrong exactly when some command of it has. -/
theorem wentWrong_iff_exists_unexpectedEndAt (expects : List (List ResultCode)) (s : State) :
    WentWrong expects s ↔ ∃ k, UnexpectedEndAt expects s k := by
  induction hs : s.script generalizing expects s with
  | nil =>
    rw [WentWrong, wentWrong_nil expects s hs]
    exact iff_of_false Bool.false_ne_true fun ⟨k, hk⟩ => not_unexpectedEndAt_of_script_nil hs k hk
  | cons a rest ih =>
    obtain ⟨t, ht⟩ := everyStepCompletes s
    have hrest : t.script = rest := by rw [step_script s t ht, hs, List.tail_cons]
    have hsplit : (∃ k, UnexpectedEndAt expects s k) ↔
        UnexpectedEndAt expects s 0 ∨ ∃ k, UnexpectedEndAt expects.tail t k := by
      rw [← Nat.or_exists_add_one]
      simp only [unexpectedEndAt_succ_iff ht]
    rw [hsplit, WentWrong, wentWrong_cons expects a rest s t hs ht, Bool.or_eq_true,
      ← unexpectedEndAt_zero_iff hs ht]
    exact or_congr_right (ih expects.tail t hrest)

/-- Settles O59: as many steps as the script has actions leave no action, and the script is followed action by
action. -/
theorem runEndsAndGoesWrongByCommand : Obligations.RunEndsAndGoesWrongByCommand := by
  refine ⟨fun s => ?_, wentWrong_iff_exists_unexpectedEndAt⟩
  obtain ⟨t, ht, hscript⟩ := exists_runFor_eq_next s.script.length s
  exact ⟨t, ht, hscript.trans List.drop_length⟩

/-! ### Straight after reset -/

/-- What reset leaves of the operands, at the start and after the reset event: nothing of them (R43). -/
theorem operands_after_reset {z : State} (hz : z = State.reset ∨ ∃ s, z = resetEvent s) :
    (z.payLen = 0 ∧ z.carLen = 0 ∧ z.bitLen = 0 ∧ z.klv = false ∧ z.int = 0) ∧
      seqPay z = [] ∧ seqCar z = [] ∧ seqBit z = [] := by
  rcases hz with rfl | ⟨s, rfl⟩ <;>
    exact ⟨⟨rfl, rfl, rfl, rfl, rfl⟩, rfl, rfl, rfl⟩

/-- `EMBED.RAW` of an empty payload writes nothing but the report (R129, R176). -/
theorem exec_embedRaw_of_payLen_eq_zero {s : State} (hpay : s.payLen = 0) :
    exec .embedRaw s = .next (complete s) := by
  have hframe : frameOf false (seqPay s) = [] := by rw [seqPay, hpay]; rfl
  have hr : frameLength false s.payLen.toNat = 0 := by rw [hpay]; rfl
  have hembed : embed false s = complete s := by
    rw [embed_fits hr nofun (Nat.zero_le _), hframe, embedFrom]
  exact congrArg Host.Outcome.next hembed

/-- Settles O21: each command's statement for empty operands, no known length and `INT` 0. -/
theorem commandsStraightAfterReset : Obligations.CommandsStraightAfterReset := by
  intro z hz
  obtain ⟨⟨hpayLen, hcarLen, hbitLen, hklv, hint⟩, hpay, hcar, hbit⟩ := operands_after_reset hz
  have hcarLen : z.carLen.toNat = 0 := congrArg BitVec.toNat hcarLen
  have hbitLen : z.bitLen.toNat = 0 := congrArg BitVec.toNat hbitLen
  refine ⟨?embedRaw, ?embedHdr, ?extractHdr, ?extractRaw, ?bits2i, ?b2bits, ?bits2b, ?lsbof, ?i2bits⟩
  case embedRaw => exact ⟨_, exec_embedRaw_of_payLen_eq_zero hpayLen, ⟨rfl, rfl, rfl⟩, rfl⟩
  case embedHdr =>
    have hr : frameLength true z.payLen.toNat = 16 := by rw [hpayLen]; rfl
    obtain ⟨hend, -⟩ := embed_tooLong_spec hr (fun _ => by rw [hpayLen]; decide) (by omega) (by decide) rfl
    exact ⟨_, rfl, hcarLen ▸ hend⟩
  case extractHdr => exact ⟨_, exec_extractHdr_noHeader (by omega), ⟨rfl, rfl, rfl⟩⟩
  case extractRaw => exact ⟨_, exec_extractRaw_absent hklv, ⟨rfl, rfl, rfl⟩⟩
  case bits2i =>
    obtain ⟨-, hbits2i⟩ := bits2iReadsOrRefuses
    obtain ⟨-, hrefuses⟩ := hbits2i z
    obtain ⟨t, ht, hend, -⟩ := hrefuses (by omega)
    exact ⟨t, ht, hend⟩
  case b2bits =>
    have hlen : (bytesToBits (seqPay z)).length = 0 := by rw [hpay]; rfl
    obtain ⟨hseq, -, -, hend, -⟩ := complete_storeBit_spec z hlen (by decide) rfl
    exact ⟨_, rfl, hend, hseq.trans (congrArg bytesToBits hpay)⟩
  case bits2b =>
    obtain ⟨-, hbits2b⟩ := bits2bStoresWholeChunks
    obtain ⟨t, ht, hseq, -, -, hend, -⟩ := hbits2b z
    exact ⟨t, ht, hend, hseq.trans (congrArg bitsToBytes hbit)⟩
  case lsbof =>
    obtain ⟨-, hlsbof⟩ := lsbofStoresParities
    obtain ⟨t, ht, hseq, -, -, -, hend, -⟩ := hlsbof z
    exact ⟨t, ht, hend, hseq.trans (congrArg lsbOf hcar)⟩
  case i2bits =>
    obtain ⟨-, hi2bits⟩ := i2bitsStoresSixteenBits
    obtain ⟨t, ht, hseq, -, -, hend, -⟩ := hi2bits z
    exact ⟨t, ht, hend, hseq.trans (congrArg intToBits hint)⟩

end Sys2Proof.Machine

/-! Family other: what reset leaves of the registers, the sequences and the cells (R43, R44). -/

namespace Sys2Proof.Machine

/-! ### A cell nothing has written holds its free value (R44) -/

theorem readPay_of_pay_eq_nil {s : State} (h : s.pay = []) (i : Nat) :
    readPay i s = Config.freePay s.resets i := by rw [readPay, h, Memory.lookup, Option.getD_none]

theorem readCar_of_car_eq_nil {s : State} (h : s.car = []) (i : Nat) :
    readCar i s = Config.freeCar s.resets i := by rw [readCar, h, Memory.lookup, Option.getD_none]

theorem readBit_of_bit_eq_nil {s : State} (h : s.bit = []) (i : Nat) :
    readBit i s = Config.freeBit s.resets i := by rw [readBit, h, Memory.lookup, Option.getD_none]

theorem readOut_of_out_eq_nil {s : State} (h : s.out = []) (i : Nat) :
    readOut i s = Config.freeOut s.resets i := by rw [readOut, h, Memory.lookup, Option.getD_none]

/-! ### What reset leaves -/

/-- `OK` has number 0, a clear `KLV` is 0, and so is every reserved bit (R22, R151). -/
theorem statusWord_ok_false : statusWord .ok false = 0 := by decide

section AfterReset
variable {z : State} (hz : z = State.reset ∨ ∃ s, z = resetEvent s)
include hz

/-- What reset leaves of the results; `operands_after_reset` is the same of the operands. -/
theorem results_after_reset : z.code = .ok ∧ seqOut z = [] := by
  rcases hz with rfl | ⟨s, rfl⟩ <;> exact ⟨rfl, rfl⟩

theorem spaces_after_reset : z.pay = [] ∧ z.car = [] ∧ z.bit = [] ∧ z.out = [] := by
  rcases hz with rfl | ⟨s, rfl⟩ <;> exact ⟨rfl, rfl, rfl, rfl⟩

theorem readReg_after_reset (r : Reg) : readReg r z = 0 := by
  rcases hz with rfl | ⟨s, rfl⟩ <;> cases r
  case inl.status | inr.status => exact statusWord_ok_false
  all_goals rfl

end AfterReset

/-- Settles O20: every field has its reset value, and the cells are free because every space is empty. -/
theorem resetLeavesRegistersZero : Obligations.ResetLeavesRegistersZero := by
  intro z hz
  obtain ⟨⟨-, -, -, hklv, -⟩, hseqPay, hseqCar, hseqBit⟩ := operands_after_reset hz
  obtain ⟨hcode, hseqOut⟩ := results_after_reset hz
  obtain ⟨hpay, hcar, hbit, hout⟩ := spaces_after_reset hz
  exact ⟨readReg_after_reset hz, hklv, hcode, hseqPay, hseqCar, hseqBit, hseqOut, fun i =>
    ⟨readPay_of_pay_eq_nil hpay i, readCar_of_car_eq_nil hcar i, readBit_of_bit_eq_nil hbit i,
      readOut_of_out_eq_nil hout i⟩⟩

end Sys2Proof.Machine
